-- ==== Sys2Proof/Word.lean ====
section
/-! DEFINITION. The cell, the one data type of the core: a W-bit value read as a two's-complement
signed integer (00_scope.md R9, R14). -/

namespace Sys2Proof

/-- A cell's value: a mathematical integer in `[-2^(W-1), 2^(W-1) - 1]` (R9). Every rule reads a cell as a signed
integer and none slices it; `W` is a parameter (R6), so the range is a predicate, `fitsW`, and not part of the type
(log 2). -/
abbrev Cell := Int

/-- The least W-bit signed value (R9). -/
def cellMin (W : Nat) : Int := -((2 ^ (W - 1) : Nat) : Int)

/-- The greatest W-bit signed value (R9). -/
def cellMax (W : Nat) : Int := ((2 ^ (W - 1) : Nat) : Int) - 1

/-- `fits_W(x)` of R9. -/
abbrev fitsW (W : Nat) (x : Int) : Prop := cellMin W ≤ x ∧ x ≤ cellMax W

end Sys2Proof
end

