-- ==== Sys2Proof/Config.lean ====
section
/-! DEFINITION. The implementation parameters of 00_scope.md R6 and R7, the Instruction Catalog's names
(30_encoding.md R62), and the model's free values. -/

namespace Sys2Proof

/-- The thirteen opcodes, in the source's declaration order (R2, R62). -/
inductive Mnemonic where
  | push | pop | add | sub | mul | print | jmp | jmplt | jmpgt | jmpeq | load | store | halt
  deriving DecidableEq, Repr

/-- The catalog's rows (R62: "exactly these 13 rows"). -/
def Mnemonic.all : List Mnemonic :=
  [.push, .pop, .add, .sub, .mul, .print, .jmp, .jmplt, .jmpgt, .jmpeq, .load, .store, .halt]

/-- The parameter `OPCODE_MAP` (R6): the integer value of each opcode. -/
structure OpcodeMap where
  push  : Cell
  pop   : Cell
  add   : Cell
  sub   : Cell
  mul   : Cell
  print : Cell
  jmp   : Cell
  jmplt : Cell
  jmpgt : Cell
  jmpeq : Cell
  load  : Cell
  store : Cell
  halt  : Cell
  deriving DecidableEq, Repr

/-- `OPCODE_MAP(mnemonic)`. -/
def OpcodeMap.value (m : OpcodeMap) : Mnemonic → Cell
  | .push => m.push
  | .pop => m.pop
  | .add => m.add
  | .sub => m.sub
  | .mul => m.mul
  | .print => m.print
  | .jmp => m.jmp
  | .jmplt => m.jmplt
  | .jmpgt => m.jmpgt
  | .jmpeq => m.jmpeq
  | .load => m.load
  | .store => m.store
  | .halt => m.halt

/-- The thirteen values, in catalog order. -/
def OpcodeMap.values (m : OpcodeMap) : List Cell := Mnemonic.all.map m.value

/-- The default map, "declaration order, PUSH=0 to HALT=12" (R6, R62, D3). -/
def OpcodeMap.default : OpcodeMap :=
  { push := 0, pop := 1, add := 2, sub := 3, mul := 4, print := 5, jmp := 6, jmplt := 7, jmpgt := 8, jmpeq := 9,
    load := 10, store := 11, halt := 12 }

/-- The parameter `OVERFLOW_POLICY` (R6, R113, D4). -/
inductive OverflowPolicy where
  | wrap
  | fault
  deriving DecidableEq, Repr

/-- The configuration (R6, R34) but for the program: fixed for a run, and a parameter of every rule. -/
structure Config where
  /-- Width in bits of every cell. -/
  W              : Nat
  /-- `STACK_CAP`, cells of the value stack. -/
  stackCap       : Nat
  /-- `MEM_CAP`, cells of the data memory. -/
  memCap         : Nat
  opcodeMap      : OpcodeMap
  overflowPolicy : OverflowPolicy
  /-- `STEP_BUDGET`: a number, or none. -/
  stepBudget     : Option Nat
  deriving DecidableEq, Repr

/-- The defaults of R6, "the value this spec gives the hardware". -/
def Config.default : Config :=
  { W := 32, stackCap := 100, memCap := 10, opcodeMap := .default, overflowPolicy := .wrap, stepBudget := none }

/-- The constraints of R7 on a configuration and a program of `progLen` cells. `progLen + 4 ≤ 2^(W-1)` is the rule's
`PROG_LEN <= 2^(W-1) - 4`. A configuration outside them is refused (93_implementation_defined.md U15; log 11). -/
abbrev Config.Admissible (c : Config) (progLen : Nat) : Prop :=
  8 ≤ c.W ∧ 1 ≤ c.stackCap ∧ 1 ≤ c.memCap ∧ progLen + 4 ≤ 2 ^ (c.W - 1) ∧
    (∀ v ∈ c.opcodeMap.values, fitsW c.W v) ∧ c.opcodeMap.values.Nodup

/-- FREE VALUE (log 5). What stack cell `i` holds while nothing has written it since reset: "unspecified" (R24, R35,
D25, U9). No body, so no proof can see it; the reader narrows it to W bits. -/
opaque Config.freeStackCell : Nat → Int

/-- FREE VALUE (log 17). What field number `field` of a status read shows where the spec leaves it unspecified, for the
read numbered `draw` (R33, D26, U10; a value wider than its field, log 7 and log 8). -/
opaque Config.freeHostValue : (draw field : Nat) → Int

end Sys2Proof
end

