-- ==== Sys2Proof/Machine/Numbers.lean ====
section
/-! DEFINITION. How a W-bit pattern and a mathematical integer are one another's reading (00_scope.md R9), and the
little-endian serialisation of cells (20_memory.md R43, D14). -/

namespace Sys2Proof

/-- `wrap_W(x)` of R9: the integer congruent to x modulo 2^W in `[-2^(W-1), 2^(W-1) - 1]`. -/
def wrapW (W : Nat) (x : Int) : Int :=
  (x + ((2 ^ (W - 1) : Nat) : Int)) % ((2 ^ W : Nat) : Int) - ((2 ^ (W - 1) : Nat) : Int)

/-- The unsigned reading of a cell's W bits. -/
def unsignedW (W : Nat) (x : Int) : Nat := (x % ((2 ^ W : Nat) : Int)).toNat

/-- `ceil(W/8)`, the bytes of a serialised cell (R43). -/
def bytesPerCell (W : Nat) : Nat := (W + 7) / 8

/-- The `n` low bytes of `x`, least significant first. -/
def littleEndian : (n x : Nat) → List (BitVec 8)
  | 0, _ => []
  | n + 1, x => BitVec.ofNat 8 x :: littleEndian n (x / 256)

/-- The number whose little-endian bytes are given. -/
def ofLittleEndian : List (BitVec 8) → Nat
  | [] => 0
  | b :: bs => b.toNat + 256 * ofLittleEndian bs

/-- A cell outside the core: "little-endian cells of ceil(W/8) bytes" (R43, D14). The bits of the last byte above bit
W-1 are not given by the spec: `pad` is whatever they hold (log 20). -/
def cellToBytes (W : Nat) (pad : Nat) (c : Cell) : List (BitVec 8) :=
  littleEndian (bytesPerCell W) (unsignedW W c + 2 ^ W * pad)

/-- The cell that a serialised cell's bytes stand for: their W low bits, read signed. -/
def cellOfBytes (W : Nat) (bytes : List (BitVec 8)) : Cell := wrapW W (ofLittleEndian bytes)

/-- The serialised image of a program: its cells' bytes (R43). The spec gives neither the order of the cells nor
whether one padding serves them all. DESIGN CHOICE: cell 0 comes first (log 25), and `pad i` is the padding of cell
`i`, each its own (log 20). -/
def programToBytes (W : Nat) (pad : Nat → Nat) : List Cell → List (BitVec 8)
  | [] => []
  | c :: cells => cellToBytes W (pad 0) c ++ programToBytes W (fun i => pad (i + 1)) cells

end Sys2Proof
end

