-- ==== Sys2Proof/Syntax.lean ====
section
/-! DEFINITION. The instructions, one constructor per row of the opcode table (00_scope.md R2, 30_encoding.md R62). -/

namespace Sys2Proof

/-- An instruction with its inline operands. The names of the operands and their cell order are R61's and R64's. -/
inductive Instr where
  /-- PUSH v (R100): `v` is the literal pushed. -/
  | push (v : Cell)
  /-- POP (R101). -/
  | pop
  /-- ADD (R110). -/
  | add
  /-- SUB (R111). -/
  | sub
  /-- MUL (R112). -/
  | mul
  /-- PRINT (R120). -/
  | print
  /-- JMP addr (R130): `addr` is an absolute program-cell index. -/
  | jmp (addr : Cell)
  /-- JMPLT val, addr (R131). -/
  | jmplt (val addr : Cell)
  /-- JMPGT val, addr (R132). -/
  | jmpgt (val addr : Cell)
  /-- JMPEQ val, addr (R133). -/
  | jmpeq (val addr : Cell)
  /-- LOAD addr (R140): `addr` is an absolute data-memory cell index. -/
  | load (addr : Cell)
  /-- STORE addr (R141). -/
  | store (addr : Cell)
  /-- HALT (R150). -/
  | halt
  deriving DecidableEq, Repr

end Sys2Proof
end

