-- ==== Sys2Proof/WellFormed.lean ====
section
/-! DEFINITION. The well-formed instructions of a core of width W: "Any W-bit value is a legal operand encoding"
(30_encoding.md R64), and nothing else is one. -/

namespace Sys2Proof

/-- Every operand is a W-bit value (R64). There is no other check: an out-of-range address is legal as an operand and
faults only when it is used. -/
abbrev Instr.WellFormed (W : Nat) : Instr → Prop
  | .push v => fitsW W v
  | .pop => True
  | .add => True
  | .sub => True
  | .mul => True
  | .print => True
  | .jmp addr => fitsW W addr
  | .jmplt val addr => fitsW W val ∧ fitsW W addr
  | .jmpgt val addr => fitsW W val ∧ fitsW W addr
  | .jmpeq val addr => fitsW W val ∧ fitsW W addr
  | .load addr => fitsW W addr
  | .store addr => fitsW W addr
  | .halt => True

end Sys2Proof
end

