-- ==== Sys2Proof/Decode.lean ====
section
/-! DEFINITION. The Instruction Catalog, the decoder and the encoder (30_encoding.md R60 to R68, R70). -/

namespace Sys2Proof

/-- The number of operand cells of an opcode (R62). -/
def Mnemonic.arity : Mnemonic → Nat
  | .push => 1
  | .pop => 0
  | .add => 0
  | .sub => 0
  | .mul => 0
  | .print => 0
  | .jmp => 1
  | .jmplt => 2
  | .jmpgt => 2
  | .jmpeq => 2
  | .load => 1
  | .store => 1
  | .halt => 0

/-- The catalog row an instruction belongs to. -/
def Instr.mnemonic : Instr → Mnemonic
  | .push _ => .push
  | .pop => .pop
  | .add => .add
  | .sub => .sub
  | .mul => .mul
  | .print => .print
  | .jmp _ => .jmp
  | .jmplt _ _ => .jmplt
  | .jmpgt _ _ => .jmpgt
  | .jmpeq _ _ => .jmpeq
  | .load _ => .load
  | .store _ => .store
  | .halt => .halt

/-- An instruction's raw operand cells, in cell order: in format II the comparison value first, the target second
(R61). -/
def Instr.operands : Instr → List Cell
  | .push v => [v]
  | .pop => []
  | .add => []
  | .sub => []
  | .mul => []
  | .print => []
  | .jmp addr => [addr]
  | .jmplt val addr => [val, addr]
  | .jmpgt val addr => [val, addr]
  | .jmpeq val addr => [val, addr]
  | .load addr => [addr]
  | .store addr => [addr]
  | .halt => []

/-- The opcode an opcode cell selects, "only by equality of the whole W-bit cell with an entry of OPCODE_MAP" (R63). -/
def OpcodeMap.lookup (m : OpcodeMap) (op : Cell) : Option Mnemonic :=
  Mnemonic.all.find? (fun k => decide (m.value k = op))

/-- Why the decoder gives no instruction, each by name. -/
inductive Reject where
  /-- There is no opcode cell. -/
  | noCell
  /-- The opcode cell is in no row of the map (R66). -/
  | unknownOpcode (op : Cell)
  /-- The opcode's last operand cell does not exist (R84). -/
  | missingOperand (op : Cell)
  deriving DecidableEq, Repr

/-- The operand cells of an opcode and what follows them, from the cells after the opcode cell. -/
def takeOperands : Mnemonic → List Cell → Option (Instr × List Cell)
  | .push, v :: rest => some (.push v, rest)
  | .pop, rest => some (.pop, rest)
  | .add, rest => some (.add, rest)
  | .sub, rest => some (.sub, rest)
  | .mul, rest => some (.mul, rest)
  | .print, rest => some (.print, rest)
  | .jmp, addr :: rest => some (.jmp addr, rest)
  | .jmplt, val :: addr :: rest => some (.jmplt val addr, rest)
  | .jmpgt, val :: addr :: rest => some (.jmpgt val addr, rest)
  | .jmpeq, val :: addr :: rest => some (.jmpeq val addr, rest)
  | .load, addr :: rest => some (.load addr, rest)
  | .store, addr :: rest => some (.store addr, rest)
  | .halt, rest => some (.halt, rest)
  | .push, [] => none
  | .jmp, [] => none
  | .jmplt, [] => none
  | .jmplt, [_] => none
  | .jmpgt, [] => none
  | .jmpgt, [_] => none
  | .jmpeq, [] => none
  | .jmpeq, [_] => none
  | .load, [] => none
  | .store, [] => none

/-- The instruction at the head of a run of cells, and the cells after it (R60, R65). Total on any cells. -/
def decodeCells (m : OpcodeMap) : List Cell → Except Reject (Instr × List Cell)
  | [] => .error .noCell
  | op :: cells =>
    match m.lookup op with
    | none => .error (.unknownOpcode op)
    | some k =>
      match takeOperands k cells with
      | none => .error (.missingOperand op)
      | some r => .ok r

/-- `decode(P, PROG_LEN, pc)` of R68. It reads the program and the PC and nothing else of the machine. -/
def decode (m : OpcodeMap) (prog : List Cell) (pc : Int) : Except Reject Instr :=
  if pc < 0 ∨ (prog.length : Int) ≤ pc then .error .noCell
  else
    match decodeCells m (prog.drop pc.toNat) with
    | .error e => .error e
    | .ok (i, _) => .ok i

/-- The cells of an instruction: the opcode value, then each operand's value (R60, R70). -/
def encode (m : OpcodeMap) (i : Instr) : List Cell := m.value i.mnemonic :: i.operands

/-- The cells of a program: the concatenation of its instructions' cells (R60, R70). -/
def encodeProgram (m : OpcodeMap) (is : List Instr) : List Cell := is.flatMap (encode m)

/-- The three cells (the longest instruction) that a number's low `nbits` bits hold, W bits a cell, the first cell in
the low bits; every bit above `nbits` is 0 (log 16). -/
def cellsOfWord (W nbits w : Nat) : List Cell :=
  [wrapW W ((w % 2 ^ nbits : Nat) : Int), wrapW W ((w % 2 ^ nbits / 2 ^ W : Nat) : Int),
   wrapW W ((w % 2 ^ nbits / 2 ^ (2 * W) : Nat) : Int)]

/-- The instruction the decoder reads from a row's word of the opcode table, which is written for W = 32 and the
default map (log 16). -/
def decodeTableWord (nbits w : Nat) : Option Instr :=
  match decodeCells OpcodeMap.default (cellsOfWord Config.default.W nbits w) with
  | .error _ => none
  | .ok (i, _) => some i

end Sys2Proof
end

