-- ==== Sys2Proof/Machine/State.lean ====
section
/-! DEFINITION. The state of the core (10_state.md R20 to R35) as plain data, the reasons a step can stop, and the
state after reset (70_reset_and_hazards.md R190). -/

namespace Sys2Proof.Machine

/-- The run state (R27, 90_conflicts.md C5). -/
inductive RunState where
  | running
  | halted
  | faulted
  deriving DecidableEq, Repr

/-- The fault kinds of 60_exceptions.md R160. Code 9 is the loader's and codes 10 to 15 are reserved: none of them is
ever produced, so none is here (U11). -/
inductive FaultKind where
  | none
  | unknownOpcode
  | unexpectedEndOfProgram
  | stackUnderflow
  | stackOverflow
  | invalidMemoryAddress
  | arithmeticOverflow
  | budgetExhausted
  | cancelled
  deriving DecidableEq, Repr

/-- An event of the output port (R30). -/
inductive Event where
  /-- Address of the opcode cell, opcode value, raw operand cells, and the live stack before dispatch (R86). -/
  | trace (pc : Cell) (opcode : Cell) (operands : List Cell) (stack : List Cell)
  /-- The value PRINT emits (R120). -/
  | print (v : Cell)
  /-- The data memory at HALT, ascending (R150, R151). -/
  | dump (cells : List Cell)
  deriving DecidableEq, Repr

/-- One sample of the host's input lines, taken at a step boundary (R169, R181, R193; log 12). -/
structure HostInput where
  reset : Bool
  abort : Bool
  deriving DecidableEq, Repr

/-- Cells by index: keys strictly rising, so that equal contents are equal lists. -/
abbrev CellMap := List (Nat × Cell)

/-- The data memory: the cells that hold something else than what an unlisted address reads as (log 15). -/
abbrev Memory := CellMap

/-- Why the MODEL stops. No fault of the spec is here: the spec describes the entry to each of its fault kinds
(60_exceptions.md R163), so each is a next state in `Faulted` (log 9). -/
inductive Fault where
  /-- Raised by `step` in a Running state whose SP is outside `[-1, STACK_CAP - 1]`. R22 says that no step starts from
  such a state, so the spec gives it no next state: stuck. Safe: no run reaches it (log 10). -/
  | stackPointerOutOfRange
  deriving DecidableEq, Repr

/-- What the model refuses, by name. -/
inductive Refusal where
  /-- Raised by an arm of `exec` whose instruction has no meaning yet; there is none. Safe. -/
  | notModelled (mnemonic : String)
  /-- Raised by `step` for a configuration or program outside R7, as U15 asks: "the model admits no such
  configuration". Safe (log 11). -/
  | inadmissibleConfiguration
  /-- Raised by the host's moves when they are made while Running, where the host has none (R53, R181, U14). Safe
  (log 18). -/
  | hostAccessWhileRunning
  /-- Raised by a host read of a data address outside `[0, MEM_CAP)`, which R181 does not offer. Safe (log 18). -/
  | noSuchHostAddress
  deriving DecidableEq, Repr

/-- The state of the core (R35), with the parameters that are fixed for a run (R34; log 1) and the host's input lines
(log 12). -/
structure State where
  /-- The configuration (R6, R34). -/
  cfg         : Config
  /-- The program store `P`; PROG_LEN is its length (R31). -/
  prog        : List Cell
  /-- The program counter (R25). -/
  pc          : Int
  /-- The stack pointer, -1 when empty (R22). -/
  sp          : Int
  /-- The value stack `S`: the cells written since reset (R21; log 5). -/
  stack       : CellMap
  /-- The data memory `M` (R32). -/
  mem         : Memory
  /-- The run state (R27). -/
  run         : RunState
  /-- The fault record (R28). -/
  faultKind   : FaultKind
  faultPc     : Int
  faultOpcode : Option Cell
  faultInfo   : Int
  /-- Instructions dispatched since reset (R29). -/
  steps       : Nat
  /-- The event log, oldest first (R30). -/
  events      : List Event
  /-- The host's input lines at the coming step boundaries, nearest first; when the list has run out both are 0. The
  MODEL's own field (log 12). -/
  hostIn      : List HostInput
  deriving DecidableEq, Repr

/-- The state reset leaves (R35, R190) in a core of a given configuration and program, which reset does not change
(R192). No stack cell is written: all are unspecified. -/
def State.boot (cfg : Config) (prog : List Cell) (hostIn : List HostInput) : State :=
  { cfg := cfg, prog := prog, pc := 0, sp := -1, stack := [], mem := [], run := .running, faultKind := .none,
    faultPc := 0, faultOpcode := none, faultInfo := 0, steps := 0, events := [], hostIn := hostIn }

/-- The machine right after reset: the default configuration (R6; log 3), no program loaded (log 4), no input. -/
def State.reset : State := State.boot Config.default [] []

end Sys2Proof.Machine
end

