-- ==== Sys2Proof/Machine/Ops.lean ====
section
/-! DEFINITION. The named operations over the stores and registers (00_scope.md R11), fault entry (60_exceptions.md
R163) and reset (70_reset_and_hazards.md R190). -/

namespace Sys2Proof.Machine

/-- What a meaning or a step answers. -/
abbrev Out := Host.Outcome State Fault Refusal

/-! ### Cells by index -/

/-- The value listed at an index. -/
def CellMap.find (k : Nat) : CellMap → Option Cell
  | [] => none
  | (j, v) :: m => if j = k then some v else CellMap.find k m

/-- List a value at an index, replacing what was listed there; the keys stay rising. -/
def CellMap.insert (k : Nat) (v : Cell) : CellMap → CellMap
  | [] => [(k, v)]
  | (j, w) :: m => if j = k then (k, v) :: m else if k < j then (k, v) :: (j, w) :: m else (j, w) :: CellMap.insert k v m

/-- List nothing at an index; the keys stay rising. -/
def CellMap.erase (k : Nat) (m : CellMap) : CellMap := m.filter (fun e => decide (e.1 ≠ k))

/-- Keys strictly rising. -/
abbrev CellMap.rising (m : CellMap) : Prop := m.Pairwise (fun a b => a.1 < b.1)

/-! ### The data memory -/

/-- What a data cell holds that is not listed: 0, "all zero at reset" (20_memory.md R46). -/
def Memory.unlisted : Cell := 0

/-- The canonical form: addresses strictly rising, and no entry equal to what an unlisted address reads as. -/
abbrev Memory.wf (m : Memory) : Prop := CellMap.rising m ∧ ∀ e ∈ m, e.2 ≠ Memory.unlisted

/-- `MemRead(a, 1)` (R11, R45): one whole cell. -/
def Memory.read (m : Memory) (a : Nat) : Cell := (CellMap.find a m).getD Memory.unlisted

/-- `MemWrite(a, 1, v)` (R11, R45): one whole cell. -/
def Memory.write (m : Memory) (a : Nat) (v : Cell) : Memory :=
  if v = Memory.unlisted then CellMap.erase a m else CellMap.insert a v m

/-- The list `M[0..MEM_CAP-1]` (R30, R151). -/
def memCells (s : State) : List Cell := (List.range s.cfg.memCap).map s.mem.read

/-- `M[addr] <- v`. -/
def memWrite (addr : Nat) (v : Cell) (s : State) : State := { s with mem := s.mem.write addr v }

/-! ### The value stack -/

/-- Stack cell `S[i]`: what was last written to it since reset, or else a free W-bit value (R24; log 5). -/
def stackCell (s : State) (i : Nat) : Cell :=
  match CellMap.find i s.stack with
  | some v => v
  | none => wrapW s.cfg.W (Config.freeStackCell i)

/-- `S[i] <- v`. -/
def stackWrite (i : Nat) (v : Cell) (s : State) : State := { s with stack := CellMap.insert i v s.stack }

/-- `depth`, the number of live values (R10). -/
def depth (s : State) : Int := s.sp + 1

/-- The live stack `S[0..SP]`, bottom first (R14). -/
def liveStack (s : State) : List Cell := (List.range (depth s).toNat).map (stackCell s)

/-- `peek()` (R11): `S[SP]`. -/
def top (s : State) : Cell := stackCell s s.sp.toNat

/-- `S[SP-1]`, the value under the top. -/
def underTop (s : State) : Cell := stackCell s (s.sp - 1).toNat

/-- `SP <- x`. -/
def setSp (x : Int) (s : State) : State := { s with sp := x }

/-- `push(v)` (R11): `SP <- SP + 1; S[SP] <- v`. -/
def push (v : Cell) (s : State) : State := setSp (s.sp + 1) (stackWrite (s.sp + 1).toNat v s)

/-- The stack effect of `pop()` (R11): `SP <- SP - 1`; the popped cell keeps what it holds (R24). -/
def drop (s : State) : State := setSp (s.sp - 1) s

/-- `S[SP-1] <- r; SP <- SP - 1` (R110): two values give way to one. -/
def replaceTwo (r : Cell) (s : State) : State := setSp (s.sp - 1) (stackWrite (s.sp - 1).toNat r s)

/-! ### Control -/

/-- `pc <- target` (R11). -/
def goto (target : Int) (s : State) : State := { s with pc := target }

/-- `next`, the address just past the instruction: `pc0 + 1 + n` (40_cycle.md R85). Dispatch runs with `pc = pc0`. -/
def nextPc (k : Mnemonic) (s : State) : Int := s.pc + 1 + (k.arity : Int)

/-- `emit(e)` (R11). -/
def emit (e : Event) (s : State) : State := { s with events := s.events ++ [e] }

/-- `halt` (R11). -/
def halt (s : State) : State := { s with run := .halted }

/-- `raise Kind(info)`: FAULT ENTRY, the one operation by which every fault of the spec is taken (60_exceptions.md
R163). `opcode` is the opcode this step fetched, or none. It is called with `pc`, `SP`, `S`, `M` and `steps` as they
were when the step started, and writes none of them. There is no return from a fault (R164): only reset leaves
Faulted. -/
def raise (kind : FaultKind) (opcode : Option Cell) (info : Int) (s : State) : State :=
  { s with run := .faulted, faultKind := kind, faultPc := s.pc, faultOpcode := opcode, faultInfo := info }

/-- A fault raised by an instruction's dispatch: the fetched opcode is the instruction's (R160; log 19). -/
def dispatchFault (k : Mnemonic) (kind : FaultKind) (info : Int) (s : State) : State :=
  raise kind (some (s.cfg.opcodeMap.value k)) info s

/-- Reset (R190): every piece of state to R35's value. It does not change the program, PROG_LEN or the configuration
(R192), nor what the host's lines will be. It stands where a return from a fault would: it is the only exit from
Halted and Faulted (R193). -/
def coreReset (s : State) : State := State.boot s.cfg s.prog s.hostIn

/-- `steps <- steps + 1` (40_cycle.md R88). -/
def countStep (s : State) : State := { s with steps := s.steps + 1 }

/-- The commit of a step (R88): it is counted only if dispatch raised no fault. -/
def commit : Out → Out
  | .next t => if t.run = .faulted then .next t else .next (countStep t)
  | .fault f => .fault f
  | .refused r => .refused r

end Sys2Proof.Machine
end

