-- ==== Sys2Proof/Machine/Flags.lean ====
section
/-! DEFINITION. The core has no flags (10_state.md R26). What other machines keep in them is here computed and used at
once: the ALU's overflow (42_arith.md R113) and the branch unit's comparisons (44_branch.md R131 to R133). -/

namespace Sys2Proof.Machine

/-- The ALU's operations (R113). -/
inductive AluOp where
  | add
  | sub
  | mul
  deriving DecidableEq, Repr

/-- The exact result, "mathematical integers, no bound" (R113). -/
def AluOp.exact : AluOp → Int → Int → Int
  | .add, a, b => a + b
  | .sub, a, b => a - b
  | .mul, a, b => a * b

/-- `alu(o, a, b)` (R113): the result, or (error) the wrapped value that is the info of `ArithmeticOverflow`. -/
def alu (cfg : Config) (o : AluOp) (a b : Cell) : Except Cell Cell :=
  if fitsW cfg.W (o.exact a b) then .ok (o.exact a b)
  else
    match cfg.overflowPolicy with
    | .wrap => .ok (wrapW cfg.W (o.exact a b))
    | .fault => .error (wrapW cfg.W (o.exact a b))

/-- The branch unit's comparisons of the top of the stack with `val`. -/
inductive Cond where
  | lt
  | gt
  | eq
  deriving DecidableEq, Repr

/-- Whether the branch is taken: signed comparison, and equality of W-bit values (R131, R132, R133). JMPLT compares
`t < val`, not `val < t` (90_conflicts.md C6). -/
def Cond.taken : Cond → (t val : Int) → Bool
  | .lt, t, val => decide (t < val)
  | .gt, t, val => decide (val < t)
  | .eq, t, val => decide (t = val)

end Sys2Proof.Machine
end

