-- ==== Sys2Proof/Machine/Operands.lean ====
section
/-! DEFINITION. The operand forms and their checks: the data address of LOAD and STORE (20_memory.md R41,
45_loadstore.md R142), the values an instruction needs on the stack (41_stack.md R102) and the room it needs
(R103). An instruction's checks come before its writes (00_scope.md R11), in the order of 60_exceptions.md R172. -/

namespace Sys2Proof.Machine

/-- A data address is valid if and only if `0 <= a < MEM_CAP` (R41). -/
abbrev validDataAddr (s : State) (a : Int) : Prop := 0 ≤ a ∧ a < (s.cfg.memCap : Int)

/-- At least `k` live values (R102: `SP + 1 >= k`). -/
abbrev holds (k : Nat) (s : State) : Prop := (k : Int) ≤ s.sp + 1

/-- Room for one more value (R103: `SP + 1 < STACK_CAP`). -/
abbrev hasRoom (s : State) : Prop := s.sp + 1 < (s.cfg.stackCap : Int)

/-- The operand check of LOAD and STORE: `InvalidMemoryAddress(addr)` unless the address is valid (R41, R140, R141). -/
def checkAddr (k : Mnemonic) (addr : Int) (s : State) (go : Out) : Out :=
  if validDataAddr s addr then go else .next (dispatchFault k .invalidMemoryAddress addr s)

/-- Underflow (R102): `StackUnderflow(SP)` unless `n` values are live. -/
def checkHolds (k : Mnemonic) (n : Nat) (s : State) (go : Out) : Out :=
  if holds n s then go else .next (dispatchFault k .stackUnderflow s.sp s)

/-- Overflow (R103): `StackOverflow(SP + 1)` unless there is room for one value. -/
def checkRoom (k : Mnemonic) (s : State) (go : Out) : Out :=
  if hasRoom s then go else .next (dispatchFault k .stackOverflow (s.sp + 1) s)

/-- The data cell a valid operand address names: absolute direct, the address whole (R142). -/
def dataIndex (addr : Int) : Nat := addr.toNat

end Sys2Proof.Machine
end

