-- ==== Sys2Proof/Machine/Arith.lean ====
section
/-! DEFINITION. ADD, SUB and MUL (42_arith.md R110 to R113). -/

namespace Sys2Proof.Machine

/-- The shape the three share: `b = S[SP]`, `a = S[SP-1]`, one ALU operation, two values replaced by one. On overflow
under `fault` nothing is popped or written (R115). -/
def aluInstr (k : Mnemonic) (o : AluOp) (s : State) : Out :=
  checkHolds k 2 s
    (match alu s.cfg o (underTop s) (top s) with
     | .ok r => .next (goto (nextPc k s) (replaceTwo r s))
     | .error info => .next (dispatchFault k .arithmeticOverflow info s))

/-- ADD (R110). -/
def execAdd (s : State) : Out := aluInstr .add .add s

/-- SUB (R111): the deeper value minus the top value. -/
def execSub (s : State) : Out := aluInstr .sub .sub s

/-- MUL (R112): the low W bits of the product, signed. -/
def execMul (s : State) : Out := aluInstr .mul .mul s

end Sys2Proof.Machine
end

