-- ==== Sys2Proof/Machine/Branch.lean ====
section
/-! DEFINITION. JMP, JMPLT, JMPGT and JMPEQ (44_branch.md R130 to R135). A target is an absolute program-cell index,
and any W-bit value may be written to `pc` (R134). -/

namespace Sys2Proof.Machine

/-- The shape the conditional jumps share: peek, compare with `val`, branch or go on. -/
def condJump (k : Mnemonic) (c : Cond) (val addr : Cell) (s : State) : Out :=
  checkHolds k 1 s (.next (goto (if c.taken (top s) val then addr else nextPc k s) s))

/-- JMP addr (R130). -/
def execJmp (addr : Cell) (s : State) : Out := .next (goto addr s)

/-- JMPLT val, addr (R131). -/
def execJmplt (val addr : Cell) (s : State) : Out := condJump .jmplt .lt val addr s

/-- JMPGT val, addr (R132). -/
def execJmpgt (val addr : Cell) (s : State) : Out := condJump .jmpgt .gt val addr s

/-- JMPEQ val, addr (R133). -/
def execJmpeq (val addr : Cell) (s : State) : Out := condJump .jmpeq .eq val addr s

end Sys2Proof.Machine
end

