-- ==== Sys2Proof/Machine/Halt.lean ====
section
/-! DEFINITION. HALT and the memory dump (46_halt.md R150, R151). -/

namespace Sys2Proof.Machine

/-- HALT (R150): `pc <- next; halt; emit(Dump(M))`. -/
def execHalt (s : State) : Out :=
  .next (emit (.dump (memCells s)) (halt (goto (nextPc .halt s) s)))

end Sys2Proof.Machine
end

