-- ==== Sys2Proof/Machine/LoadStore.lean ====
section
/-! DEFINITION. LOAD and STORE (45_loadstore.md R140 to R142), the only instructions that reach the data memory. The
address check comes before the stack check (60_exceptions.md R172). -/

namespace Sys2Proof.Machine

/-- LOAD addr (R140). -/
def execLoad (addr : Cell) (s : State) : Out :=
  checkAddr .load addr s
    (checkRoom .load s (.next (goto (nextPc .load s) (push (s.mem.read (dataIndex addr)) s))))

/-- STORE addr (R141): the value is popped. -/
def execStore (addr : Cell) (s : State) : Out :=
  checkAddr .store addr s
    (checkHolds .store 1 s (.next (goto (nextPc .store s) (memWrite (dataIndex addr) (top s) (drop s)))))

end Sys2Proof.Machine
end

