-- ==== Sys2Proof/Machine/Output.lean ====
section
/-! DEFINITION. PRINT (43_output.md R120, R121). -/

namespace Sys2Proof.Machine

/-- PRINT (R120): the top is removed and emitted unchanged. -/
def execPrint (s : State) : Out :=
  checkHolds .print 1 s (.next (goto (nextPc .print s) (emit (.print (top s)) (drop s))))

end Sys2Proof.Machine
end

