-- ==== Sys2Proof/Machine/Stack.lean ====
section
/-! DEFINITION. PUSH and POP (41_stack.md R100, R101). -/

namespace Sys2Proof.Machine

/-- PUSH v (R100). -/
def execPush (v : Cell) (s : State) : Out :=
  checkRoom .push s (.next (goto (nextPc .push s) (push v s)))

/-- POP (R101): the value is discarded. -/
def execPop (s : State) : Out :=
  checkHolds .pop 1 s (.next (goto (nextPc .pop s) (drop s)))

end Sys2Proof.Machine
end

