-- ==== Sys2Proof/Machine/Dispatch.lean ====
section
/-! DEFINITION. Dispatch (40_cycle.md R87): the rule of each opcode. -/

namespace Sys2Proof.Machine

def exec (i : Instr) (s : State) : Host.Outcome State Fault Refusal :=
  match i with
  | .push v => Sys2Proof.Machine.execPush v s
  | .pop => Sys2Proof.Machine.execPop s
  | .add => Sys2Proof.Machine.execAdd s
  | .sub => Sys2Proof.Machine.execSub s
  | .mul => Sys2Proof.Machine.execMul s
  | .print => Sys2Proof.Machine.execPrint s
  | .jmp addr => Sys2Proof.Machine.execJmp addr s
  | .jmplt val addr => Sys2Proof.Machine.execJmplt val addr s
  | .jmpgt val addr => Sys2Proof.Machine.execJmpgt val addr s
  | .jmpeq val addr => Sys2Proof.Machine.execJmpeq val addr s
  | .load addr => Sys2Proof.Machine.execLoad addr s
  | .store addr => Sys2Proof.Machine.execStore addr s
  | .halt => Sys2Proof.Machine.execHalt s

end Sys2Proof.Machine
end

