-- ==== Sys2Proof/Machine/Cycle.lean ====
section
/-! DEFINITION. The fetch-decode-execute cycle of a Running core (40_cycle.md R81 to R88). -/

namespace Sys2Proof.Machine

/-- The step-budget check of R168: it holds when `steps >= STEP_BUDGET`. -/
def budgetSpent (s : State) : Bool :=
  match s.cfg.stepBudget with
  | none => false
  | some b => decide (b ≤ s.steps)

/-- The step's Trace event (R86): the address of the opcode cell, the opcode, the raw operand cells and the live stack
before dispatch. The opcode cell's value is the map's value of the decoded opcode (R63). -/
def traceOf (i : Instr) (s : State) : Event :=
  .trace s.pc (s.cfg.opcodeMap.value i.mnemonic) i.operands (liveStack s)

/-- The step of a decoded instruction: trace, dispatch, commit (R86, R87, R88). -/
def runInstr (i : Instr) (s : State) : Out := commit (exec i (emit (traceOf i s) s))

/-- The fault a failed decode raises (R82, R83, R84): for no opcode cell, `pc` is the first missing cell; for a missing
operand cell, PROG_LEN is. -/
def fetchFault (s : State) : Reject → State
  | .noCell => raise .unexpectedEndOfProgram none s.pc s
  | .unknownOpcode op => raise .unknownOpcode (some op) op s
  | .missingOperand op => raise .unexpectedEndOfProgram (some op) (s.prog.length : Int) s

/-- Fetch and decode (R82 to R85), then the instruction or the fetch's fault. -/
def fetchAndRun (s : State) : Out :=
  match decode s.cfg.opcodeMap s.prog s.pc with
  | .error e => .next (fetchFault s e)
  | .ok i => runInstr i s

/-- One step of R81, with the sampled `abort` line. The order of the checks is R170's. -/
def cycle (abort : Bool) (s : State) : Out :=
  if abort then .next (raise .cancelled none s.pc s)
  else if budgetSpent s then .next (raise .budgetExhausted none (s.steps : Int) s)
  else fetchAndRun s

/-- The host's lines at this boundary; none listed means both are 0 (log 12). -/
def hostLines (s : State) : HostInput := s.hostIn.headD { reset := false, abort := false }

/-- The boundary's sample is taken. -/
def sampleHost (s : State) : State := { s with hostIn := s.hostIn.tail }

/-- R22's bound on the stack pointer "in every state a step starts from". -/
abbrev spInRange (s : State) : Prop := -1 ≤ s.sp ∧ s.sp ≤ (s.cfg.stackCap : Int) - 1

/-- One step boundary: reset if its line is 1 (R193); nothing if the core is not Running (R80, R180; log 14); else one
step of R81. -/
def boundary (s : State) : Out :=
  if ¬ s.cfg.Admissible s.prog.length then .refused .inadmissibleConfiguration
  else if (hostLines s).reset then .next (coreReset (sampleHost s))
  else if s.run ≠ .running then .next (sampleHost s)
  else if ¬ spInRange s then .fault .stackPointerOutOfRange
  else cycle (hostLines s).abort (sampleHost s)

/-- Program cells with `cells` from index `at_` on; cells missing below it are 0. -/
def placeCells (prog : List Cell) (at_ : Nat) (cells : List Cell) : List Cell :=
  (prog ++ List.replicate (at_ - prog.length) 0).take at_ ++ cells ++ prog.drop (at_ + cells.length)

end Sys2Proof.Machine
end

