-- ==== Sys2Proof/Machine/Step.lean ====
section
/-! DEFINITION. One step of the machine (40_cycle.md R80, R81), and the placing of one instruction's word where the
next step fetches it. -/

namespace Sys2Proof.Machine

/-- One step boundary of the core. -/
def step (s : State) : Host.Outcome State Fault Refusal := boundary s

/-- `s` with an instruction's word (numbered as the opcode table numbers its bits) in the program store where the next
step fetches: at cell `pc`, or at cell 0 with `pc` set to 0 when `pc` is negative and no program cell has that index.
The program is loaded from outside the machine (60_exceptions.md R181), and this stands for that load (log 4,
log 16). -/
def State.withFetchWord (s : State) (nbits w : Nat) : State :=
  { s with pc := (s.pc.toNat : Int), prog := placeCells s.prog s.pc.toNat (cellsOfWord s.cfg.W nbits w) }

end Sys2Proof.Machine
end

