-- ==== Sys2Proof/Machine/HostPort.lean ====
section
/-! DEFINITION. The host's side of the core (60_exceptions.md R181): configuration and program load, the status view
(10_state.md R33), the memory read, and the observation of a run (40_cycle.md R91). Reset and abort are lines the step
samples (`State.hostIn`). -/

namespace Sys2Proof.Machine

/-- The code of a run state in the field RUN (R33); 3 is reserved and never produced. -/
def RunState.code : RunState → BitVec 2
  | .running => 0
  | .halted => 1
  | .faulted => 2

/-- The code of a fault kind (R160). -/
def FaultKind.code : FaultKind → BitVec 4
  | .none => 0
  | .unknownOpcode => 1
  | .unexpectedEndOfProgram => 2
  | .stackUnderflow => 3
  | .stackOverflow => 4
  | .invalidMemoryAddress => 5
  | .arithmeticOverflow => 6
  | .budgetExhausted => 7
  | .cancelled => 8

/-- The status view (R33). -/
structure StatusView where
  run              : BitVec 2
  faultKind        : BitVec 4
  faultPc          : Cell
  faultOpcodeValid : Bool
  faultOpcode      : Cell
  faultInfo        : Cell
  pc               : Cell
  sp               : Cell
  steps            : Nat
  deriving DecidableEq, Repr

/-- A W-bit field of the view: the value, or a free W-bit value where the value does not fit the field (log 7). -/
def viewCell (W draw field : Nat) (x : Int) : Cell :=
  if fitsW W x then x else wrapW W (Config.freeHostValue draw field)

/-- Whether STEPS, "at least 32 bits" and wide enough for the budget (R29, R33), is known to hold the count (log 8). -/
def stepsFit (s : State) : Bool :=
  decide (s.steps < 2 ^ 32) ||
    match s.cfg.stepBudget with
    | none => false
    | some b => decide (s.steps ≤ b)

/-- The view of a core that is not Running (R33). -/
def statusView (draw : Nat) (s : State) : StatusView :=
  { run := s.run.code
    faultKind := s.faultKind.code
    faultPc := viewCell s.cfg.W draw 2 s.faultPc
    faultOpcodeValid := s.faultOpcode.isSome
    faultOpcode := viewCell s.cfg.W draw 4 (s.faultOpcode.getD 0)
    faultInfo := viewCell s.cfg.W draw 5 s.faultInfo
    pc := viewCell s.cfg.W draw 6 s.pc
    sp := viewCell s.cfg.W draw 7 s.sp
    steps := if stepsFit s then s.steps else (Config.freeHostValue draw 8).toNat }

/-- "A read during Running returns an unspecified value" (R33, U10): every field a free value of its width (log 17). -/
def unspecifiedView (W draw : Nat) : StatusView :=
  { run := BitVec.ofInt 2 (Config.freeHostValue draw 0)
    faultKind := BitVec.ofInt 4 (Config.freeHostValue draw 1)
    faultPc := wrapW W (Config.freeHostValue draw 2)
    faultOpcodeValid := decide (Config.freeHostValue draw 3 = 0)
    faultOpcode := wrapW W (Config.freeHostValue draw 4)
    faultInfo := wrapW W (Config.freeHostValue draw 5)
    pc := wrapW W (Config.freeHostValue draw 6)
    sp := wrapW W (Config.freeHostValue draw 7)
    steps := (Config.freeHostValue draw 8).toNat }

/-- The host's status read numbered `draw` (R33, R181). -/
def readStatus (draw : Nat) (s : State) : StatusView :=
  if s.run = .running then unspecifiedView s.cfg.W draw else statusView draw s

/-- The host's memory read (R53, R181): when not Running, an address in `[0, MEM_CAP)`. -/
def hostReadMemory (addr : Nat) (s : State) : Except Refusal Cell :=
  if s.run = .running then .error .hostAccessWhileRunning
  else if s.cfg.memCap ≤ addr then .error .noSuchHostAddress
  else .ok (s.mem.read addr)

/-- What the host may load: a configuration and program length that meet R7, each cell a W-bit value (R31). -/
abbrev loadable (cfg : Config) (prog : List Cell) : Prop :=
  cfg.Admissible prog.length ∧ ∀ c ∈ prog, fitsW cfg.W c

/-- Load a program (R53, R181, R194): never while Running. DESIGN CHOICE: reset leaves the core Running at once (R190), so
a load while the reset line is held, between two reset boundaries, is refused too; the spec leaves that open (log 26). -/
def hostLoad (prog : List Cell) (s : State) : Out :=
  if s.run = .running then .refused .hostAccessWhileRunning
  else if ¬ loadable s.cfg prog then .refused .inadmissibleConfiguration
  else .next { s with prog := prog }

/-- Set the configuration and load the program for it (R181, R194 (a) and (b)): never while Running, and only to values
that meet R7. They act on a run from the next reset on. DESIGN CHOICE: while reset is held they are refused, as a load is
(log 26). -/
def hostConfigure (cfg : Config) (prog : List Cell) (s : State) : Out :=
  if s.run = .running then .refused .hostAccessWhileRunning
  else if ¬ loadable cfg prog then .refused .inadmissibleConfiguration
  else .next { s with cfg := cfg, prog := prog }

/-- The observation of a run (R91): the event log, the run state and, if Faulted, the fault record. -/
structure Observation where
  events      : List Event
  run         : RunState
  faultRecord : Option (FaultKind × Int × Option Cell × Int)
  deriving DecidableEq, Repr

/-- What the host can observe of a state (R91). -/
def observe (s : State) : Observation :=
  { events := s.events
    run := s.run
    faultRecord :=
      if s.run = .faulted then some (s.faultKind, s.faultPc, s.faultOpcode, s.faultInfo) else none }

end Sys2Proof.Machine
end

