-- ==== Sys2Proof/Safety.lean ====
section
/-! DEFINITION. What holds in every state of a run (40_cycle.md R92 and the widths of 10_state.md R35), and what the
event log says of a run (R89, R91, 20_memory.md R48, 46_halt.md R151). -/

namespace Sys2Proof.Machine

/-- The legal states: what the spec says of every state a step starts from, and the model's canonical forms. -/
structure State.Inv (s : State) : Prop where
  /-- R7. -/
  admissible  : s.cfg.Admissible s.prog.length
  /-- R31: each program cell is a W-bit value. -/
  progFits    : ∀ c ∈ s.prog, fitsW s.cfg.W c
  /-- R25: pc is a W-bit value; it may be any of them (R92). -/
  pcFits      : fitsW s.cfg.W s.pc
  /-- R22, R92. -/
  spInRange   : -1 ≤ s.sp ∧ s.sp ≤ (s.cfg.stackCap : Int) - 1
  stackRising : CellMap.rising s.stack
  /-- R21: the stack's cells are S[0] to S[STACK_CAP-1], W bits each. -/
  stackFits   : ∀ e ∈ s.stack, e.1 < s.cfg.stackCap ∧ fitsW s.cfg.W e.2
  /-- R24: a live cell has been written. -/
  liveWritten : ∀ i : Nat, (i : Int) ≤ s.sp → (CellMap.find i s.stack).isSome
  memWf       : Memory.wf s.mem
  /-- R32: the memory's cells are M[0] to M[MEM_CAP-1], W bits each. -/
  memFits     : ∀ e ∈ s.mem, e.1 < s.cfg.memCap ∧ fitsW s.cfg.W e.2
  /-- R28: the record is written once, when the core enters Faulted. -/
  recordKind  : s.run = .faulted ↔ s.faultKind ≠ .none
  recordClear : s.faultKind = .none → s.faultPc = 0 ∧ s.faultOpcode = none ∧ s.faultInfo = 0
  /-- R168: at most B instructions complete. -/
  budget      : ∀ b, s.cfg.stepBudget = some b → s.steps ≤ b

/-- A run that has not ended in a fault. -/
def State.Safe (s : State) : Prop := s.Inv ∧ s.run ≠ .faulted

/-! ### Reading a run off its event log -/

/-- Whether an event is a Trace. -/
def Event.isTrace : Event → Bool
  | .trace _ _ _ _ => true
  | .print _ => false
  | .dump _ => false

/-- Whether an event is a Dump. -/
def Event.isDump : Event → Bool
  | .trace _ _ _ _ => false
  | .print _ => false
  | .dump _ => true

/-- The fault kinds that dispatch raises, after its step's Trace (60_exceptions.md R165, R166). -/
def FaultKind.isDispatch : FaultKind → Bool
  | .none => false
  | .unknownOpcode => false
  | .unexpectedEndOfProgram => false
  | .stackUnderflow => true
  | .stackOverflow => true
  | .invalidMemoryAddress => true
  | .arithmeticOverflow => true
  | .budgetExhausted => false
  | .cancelled => false

/-- The store an event tells of, if any: a Trace of STORE with a valid address and a value on the stack stores the top
of that stack (R86, R141). -/
def storeOf (cfg : Config) : Event → Option (Nat × Cell)
  | .trace _ op [addr] stack =>
    if op = cfg.opcodeMap.store ∧ 0 ≤ addr ∧ addr < (cfg.memCap : Int) then
      stack.getLast?.map (fun v => (addr.toNat, v))
    else none
  | .trace _ _ _ _ => none
  | .print _ => none
  | .dump _ => none

/-- The value of the LAST store to cell `a` that a log tells of, or 0 if it tells of none (R48, R92). -/
def lastStored (cfg : Config) (a : Nat) (events : List Event) : Cell :=
  events.foldl (fun acc e => match storeOf cfg e with
    | some (b, v) => if b = a then v else acc
    | none => acc) 0

/-- What the event log says of the state. -/
structure State.LogInv (s : State) : Prop where
  /-- R48, R92: every memory cell holds the value of the last STORE to it, or 0. -/
  memIsLastStore : ∀ a, s.mem.read a = lastStored s.cfg a s.events
  /-- R86, R88, R92: one Trace for each completed step, and one more for a step that dispatch faulted. -/
  traceCount     : s.events.countP Event.isTrace =
    s.steps + (if s.run = .faulted ∧ s.faultKind.isDispatch then 1 else 0)
  /-- R89, R151: one Dump in a halted run and none in any other. -/
  dumpCount      : s.events.countP Event.isDump = if s.run = .halted then 1 else 0
  /-- R89: after HALT the Dump is the last event, and it is the final memory. -/
  dumpLast       : s.run = .halted → s.events.getLast? = some (.dump (memCells s))

/-! ### States a step starts from -/

/-- The states in which the next boundary takes a step of R81: an admitted configuration (R7), reset not asserted
(R193), Running (R80), and SP within R22's bound. -/
def State.Ready (s : State) : Prop :=
  s.cfg.Admissible s.prog.length ∧ (hostLines s).reset = false ∧ s.run = .running ∧ spInRange s

/-- A ready state in which no host stop is due: `abort` is 0 (R169) and the budget is not spent (R168). -/
def State.Free (s : State) : Prop :=
  s.Ready ∧ (hostLines s).abort = false ∧ ∀ b, s.cfg.stepBudget = some b → s.steps < b

/-! ### Relations between states -/

/-- `t` is `s` after an instruction that writes pc, SP and at most the stack cell `written`, and nothing else. -/
def State.StackStep (s t : State) (pc : Int) (sp written : Int) : Prop :=
  t.pc = pc ∧ t.sp = sp ∧ (∀ i : Nat, (i : Int) ≠ written → stackCell t i = stackCell s i) ∧
    (∀ a, t.mem.read a = s.mem.read a) ∧ t = { s with pc := t.pc, sp := t.sp, stack := t.stack }

/-- The state with the Trace events taken out of its log (60_exceptions.md R179). -/
def State.eraseTraces (s : State) : State := { s with events := s.events.filter (fun e => !e.isTrace) }

/-- Two states that agree in everything but dead stack cells (10_state.md R24). -/
def State.SameButDead (s t : State) : Prop := t = { s with stack := t.stack } ∧ liveStack s = liveStack t

end Sys2Proof.Machine
end

