-- ==== Sys2Proof/Certificates/Slice0/Obligations.lean ====
section
/-! DEFINITION. The statements for the provers. -/

open Sys2Proof Sys2Proof.Machine

/-! ### Reset, invariants, runs -/

/-- R190, R192, R193: a boundary at which the reset line is 1, in any run state, puts every piece of state to its reset
value, and keeps the program and the configuration. The model's choices in it: the boundary itself runs no instruction
and reset wins over abort (log 13), and the lines come as a list of samples, one taken (log 12). -/
def Obligations.ResetRestoresEveryState : Prop :=
  ∀ s : State, s.cfg.Admissible s.prog.length → (hostLines s).reset = true →
    ∃ t, step s = .next t ∧ t.pc = 0 ∧ t.sp = -1 ∧ liveStack t = [] ∧ (∀ a, t.mem.read a = 0) ∧ t.run = .running ∧
      t.faultKind = .none ∧ t.faultPc = 0 ∧ t.faultOpcode = none ∧ t.faultInfo = 0 ∧ t.steps = 0 ∧ t.events = [] ∧
      t.prog = s.prog ∧ t.cfg = s.cfg ∧ t.hostIn = s.hostIn.tail

/-- R192: the state after reset depends on the configuration, the program and the coming host inputs alone. The list of
coming inputs (log 12) and the free value of an unwritten stack cell, one for each index in every run (log 5), are the
model's choices. -/
def Obligations.ResetForgetsThePast : Prop :=
  ∀ s u : State, s.cfg = u.cfg → s.prog = u.prog → s.hostIn = u.hostIn → (hostLines s).reset = true →
    ∀ k, core.run (k + 1) s = core.run (k + 1) u

/-- R35, R6: the state after reset, register by register, in a core with the default configuration. That no program is
loaded and no input is listed in it is the model's choice (log 4, log 12). -/
def Obligations.ResetValuesAreTheSpecs : Prop :=
  State.reset.pc = 0 ∧ State.reset.sp = -1 ∧ (∀ a, State.reset.mem.read a = 0) ∧ State.reset.run = .running ∧
    State.reset.faultKind = .none ∧ State.reset.faultPc = 0 ∧ State.reset.faultOpcode = none ∧
    State.reset.faultInfo = 0 ∧ State.reset.steps = 0 ∧ State.reset.events = [] ∧
    State.reset.cfg.W = 32 ∧ State.reset.cfg.stackCap = 100 ∧ State.reset.cfg.memCap = 10 ∧
    State.reset.cfg.opcodeMap.values = [0, 1, 2, 3, 4, 5, 6, 7, 8, 9, 10, 11, 12] ∧
    State.reset.cfg.overflowPolicy = .wrap ∧ State.reset.cfg.stepBudget = none ∧ State.reset.prog = []

/-- The state after reset is legal, and its (empty) log accounts for it. -/
def Obligations.ResetStateIsLegal : Prop :=
  State.reset.Inv ∧ State.reset.LogInv

/-- R194: so is the reset state of any core with an admitted configuration and a program of W-bit cells. -/
def Obligations.BootStateIsLegal : Prop :=
  ∀ (cfg : Config) (prog : List Cell) (inputs : List HostInput), cfg.Admissible prog.length →
    (∀ c ∈ prog, fitsW cfg.W c) → (State.boot cfg prog inputs).Inv ∧ (State.boot cfg prog inputs).LogInv

/-- Every step boundary keeps the invariant: widths, R22's bound on SP, written live cells, the canonical forms, the
fault record's rule and the budget's bound. -/
def Obligations.StepKeepsLegalStates : Prop :=
  ∀ s t : State, s.Inv → step s = .next t → t.Inv

/-- Every step boundary keeps the log's account of the state: each memory cell is 0 or the last value stored to it,
one Trace a completed or dispatch-faulted step, one Dump exactly when Halted. -/
def Obligations.StepKeepsLogAccount : Prop :=
  ∀ s t : State, s.LogInv → step s = .next t → t.LogInv

/-- From a legal state there is always a next state: no fault of the spec, and no ordinary data, stops the model. Two of
its cases are the model's choices: a fault of the spec is a next state in Faulted (log 9), and a core that is Halted or
Faulted, in which R80 has no step, answers an idle boundary (log 14). -/
def Obligations.LegalStatesNeverStop : Prop :=
  ∀ s : State, s.Inv → ∃ t, step s = .next t

/-- The boundaries from the reset state of any core never stop, and are legal and accounted for, for every configuration,
program and sequence of host inputs. That they go on, idle, after the run of R89 has ended in HALT or a fault is the
model's choice (log 14), as is the list of inputs (log 12). -/
def Obligations.EveryRunIsLegal : Prop :=
  ∀ (cfg : Config) (prog : List Cell) (inputs : List HostInput), cfg.Admissible prog.length →
    (∀ c ∈ prog, fitsW cfg.W c) →
    ∀ k, ∃ t, core.run k (State.boot cfg prog inputs) = .next t ∧ t.Inv ∧ t.LogInv

/-- R168, U13: with a budget B and no reset, a run is over after B + 1 boundaries, and completed at most B
instructions. Where it ends earlier, the rest of the B + 1 boundaries are idle ones, which is the model's choice
(log 14). -/
def Obligations.BudgetEndsEveryRun : Prop :=
  ∀ (cfg : Config) (prog : List Cell) (inputs : List HostInput) (b : Nat), cfg.Admissible prog.length →
    cfg.stepBudget = some b → (∀ h ∈ inputs, h.reset = false) →
    ∃ t, core.run (b + 1) (State.boot cfg prog inputs) = .next t ∧ t.run ≠ .running ∧ t.steps ≤ b

/-- The only stops of the model: a configuration outside R7 is refused (U15; log 11), and a Running state whose SP
breaks R22's bound is stuck unless it is reset (log 10). Both are the model's choice of how to stop. -/
def Obligations.ModelStopsOnlyOnIllegalStates : Prop :=
  ∀ s : State,
    ((∃ r, step s = .refused r) ↔ ¬ s.cfg.Admissible s.prog.length) ∧
    ((∃ f, step s = .fault f) ↔
      s.cfg.Admissible s.prog.length ∧ (hostLines s).reset = false ∧ s.run = .running ∧ ¬ spInRange s)

/-! ### Encoding -/

/-- R60, R65, R67: decoding the encoding of an instruction, at any place of a program, gives it back with every operand,
for every map of distinct values and every operand value. -/
def Obligations.DecodeEncodeRoundTrip : Prop :=
  ∀ (m : OpcodeMap) (i : Instr) (before after : List Cell), m.values.Nodup →
    decode m (before ++ encode m i ++ after) (before.length : Int) = .ok i ∧
    decodeCells m (encode m i ++ after) = .ok (i, after)

/-- R60, R65: the cells the decoder reads an instruction from are its encoding, whole and inside the program. -/
def Obligations.DecodedCellsAreTheEncoding : Prop :=
  ∀ (m : OpcodeMap) (prog : List Cell) (pc : Int) (i : Instr), decode m prog pc = .ok i →
    0 ≤ pc ∧ pc + 1 + (i.mnemonic.arity : Int) ≤ (prog.length : Int) ∧
    (∃ before after, prog = before ++ encode m i ++ after ∧ (before.length : Int) = pc) ∧
    (encode m i).length = 1 + i.mnemonic.arity

/-- R31, R64: in a program of W-bit cells, every decoded instruction is well-formed: its operands are W-bit values. -/
def Obligations.DecodedInstructionsAreWellFormed : Prop :=
  ∀ (W : Nat) (m : OpcodeMap) (prog : List Cell) (pc : Int) (i : Instr), (∀ c ∈ prog, fitsW W c) →
    decode m prog pc = .ok i → i.WellFormed W

/-- R68: the decoder's four outcomes. `noCell`, `unknownOpcode` and `missingOperand` are its names for
UnexpectedEndOfProgram(pc), UnknownOpcode(op) and UnexpectedEndOfProgram(PROG_LEN). -/
def Obligations.DecoderIsTheRuleOfThePrograms : Prop :=
  ∀ (m : OpcodeMap) (prog : List Cell) (pc : Int), m.values.Nodup →
    (pc < 0 ∨ (prog.length : Int) ≤ pc → decode m prog pc = .error .noCell) ∧
    (∀ op, 0 ≤ pc → prog[pc.toNat]? = some op → (∀ k, m.value k ≠ op) →
      decode m prog pc = .error (.unknownOpcode op)) ∧
    (∀ k, 0 ≤ pc → prog[pc.toNat]? = some (m.value k) → (prog.length : Int) ≤ pc + k.arity →
      decode m prog pc = .error (.missingOperand (m.value k))) ∧
    (∀ k, 0 ≤ pc → prog[pc.toNat]? = some (m.value k) → pc + k.arity < (prog.length : Int) →
      ∃ i, decode m prog pc = .ok i ∧ i.mnemonic = k ∧ i.operands = (prog.drop (pc.toNat + 1)).take k.arity ∧
        (encode m i).length = 1 + k.arity)

/-- R63: an opcode cell selects by equality of the whole cell only, and under the default map 0 to 12 are legal and
nothing else is. -/
def Obligations.OpcodesAreWholeCells : Prop :=
  (∀ (m : OpcodeMap) (op : Cell) (k : Mnemonic), m.values.Nodup → (m.lookup op = some k ↔ m.value k = op)) ∧
    (∀ op : Int, (OpcodeMap.default.lookup op).isSome ↔ 0 ≤ op ∧ op ≤ 12)

/-- Words written out from R61 and R62 under the default map decode to the instructions they stand for, and R70's
example encodes to its seven cells. -/
def Obligations.WrittenWordsDecode : Prop :=
  decodeCells .default [0, 7] = .ok (.push 7, []) ∧
  decodeCells .default [2, 5, 12] = .ok (.add, [5, 12]) ∧
  decodeCells .default [7, 10, 8, 1] = .ok (.jmplt 10 8, [1]) ∧
  decodeCells .default [11, -1] = .ok (.store (-1), []) ∧
  decodeCells .default [13] = .error (.unknownOpcode 13) ∧
  decodeCells .default [8, 5] = .error (.missingOperand 8) ∧
  encodeProgram .default [.push 2, .push 3, .add, .print, .halt] = [0, 2, 0, 3, 2, 5, 12]

/-- R43, D14: a cell serialises to ceil(W/8) bytes, least significant first, and reads back as itself. That there is a
padding argument and that reading back ignores it is the model's choice (log 20). -/
def Obligations.SerialisedCellsReadBack : Prop :=
  ∀ (W pad : Nat) (c : Cell), 1 ≤ W → fitsW W c →
    (cellToBytes W pad c).length = bytesPerCell W ∧
    (∀ j, j < bytesPerCell W →
      (cellToBytes W pad c)[j]?.map BitVec.toNat = some ((unsignedW W c + 2 ^ W * pad) / 256 ^ j % 256)) ∧
    cellOfBytes W (cellToBytes W pad c) = c ∧
    8 * bytesPerCell W < W + 8 ∧ W ≤ 8 * bytesPerCell W

/-! ### The step -/

/-- R86, R87, R88: when the cells at pc decode to an instruction, the step is that instruction's rule after its Trace,
and `steps` counts it unless it raised. -/
def Obligations.StepRunsTheDecodedInstruction : Prop :=
  ∀ (s t : State) (i : Instr), s.Free → decode s.cfg.opcodeMap s.prog s.pc = .ok i →
    exec i { s with
      hostIn := s.hostIn.tail,
      events := s.events ++ [.trace s.pc (s.cfg.opcodeMap.value i.mnemonic) i.operands (liveStack s)] } = .next t →
    step s = .next (if t.run = .faulted then t else { t with steps := t.steps + 1 })

/-- R82, R83, R84, R168, R169, R170: the checks before dispatch, each stated where the earlier ones do not hold. The
conclusion says that nothing is fetched or emitted: `raise` keeps the log. -/
def Obligations.StepStartChecksInOrder : Prop :=
  ∀ s : State, s.Ready →
    ((hostLines s).abort = true → step s = .next (raise .cancelled none s.pc (sampleHost s))) ∧
    (∀ b, (hostLines s).abort = false → s.cfg.stepBudget = some b → b ≤ s.steps →
      step s = .next (raise .budgetExhausted none (s.steps : Int) (sampleHost s))) ∧
    (s.Free → s.pc < 0 ∨ (s.prog.length : Int) ≤ s.pc →
      step s = .next (raise .unexpectedEndOfProgram none s.pc (sampleHost s))) ∧
    (∀ op, s.Free → 0 ≤ s.pc → s.prog[s.pc.toNat]? = some op → (∀ k, s.cfg.opcodeMap.value k ≠ op) →
      step s = .next (raise .unknownOpcode (some op) op (sampleHost s))) ∧
    (∀ k, s.Free → 0 ≤ s.pc → s.prog[s.pc.toNat]? = some (s.cfg.opcodeMap.value k) →
      (s.prog.length : Int) ≤ s.pc + k.arity →
      step s = .next (raise .unexpectedEndOfProgram (some (s.cfg.opcodeMap.value k)) (s.prog.length : Int) (sampleHost s)))

/-- R80, R180: while not Running, a boundary without reset keeps all state. That the model answers the same state, and
not no state, is its choice (log 14). -/
def Obligations.TerminalStatesKeepEverything : Prop :=
  ∀ s : State, s.cfg.Admissible s.prog.length → s.run ≠ .running → (hostLines s).reset = false →
    step s = .next { s with hostIn := s.hostIn.tail }

/-- R163: fault entry writes run and the fault record, and a step that faults changes nothing else but its own Trace in
the log, which is there exactly when the fault came from dispatch (and the host line it sampled: log 12). The recorded
opcode is the cell at pc, and it is none exactly when the step fetched none. -/
def Obligations.FaultEntryIsPrecise : Prop :=
  (∀ (k : FaultKind) (op : Option Cell) (info : Int) (s : State),
    raise k op info s =
      { s with run := .faulted, faultKind := k, faultPc := s.pc, faultOpcode := op, faultInfo := info }) ∧
  (∀ s t : State, s.run = .running → step s = .next t → t.run = .faulted →
    t = { s with
      run := .faulted, faultKind := t.faultKind, faultPc := s.pc, faultOpcode := t.faultOpcode,
      faultInfo := t.faultInfo, events := t.events, hostIn := s.hostIn.tail } ∧
    (t.faultKind.isDispatch = true → ∃ i, decode s.cfg.opcodeMap s.prog s.pc = .ok i ∧
      t.faultOpcode = some (s.cfg.opcodeMap.value i.mnemonic) ∧
      t.events = s.events ++ [.trace s.pc (s.cfg.opcodeMap.value i.mnemonic) i.operands (liveStack s)]) ∧
    (t.faultKind.isDispatch = false → t.events = s.events) ∧
    (∀ op, t.faultOpcode = some op → 0 ≤ s.pc ∧ s.prog[s.pc.toNat]? = some op) ∧
    (t.faultOpcode = none ↔ (hostLines s).abort = true ∨ (∃ b, s.cfg.stepBudget = some b ∧ b ≤ s.steps) ∨
      s.pc < 0 ∨ (s.prog.length : Int) ≤ s.pc))

/-- R160: every fault a step raises is a row of the table, with that row's code, cause, opcode and info. -/
def Obligations.EveryFaultHasItsCause : Prop :=
  ∀ s t : State, s.run = .running → step s = .next t → t.run = .faulted →
    t.faultPc = s.pc ∧
    (t.faultKind, t.faultKind.code) ∈
      [(FaultKind.unknownOpcode, 1), (.unexpectedEndOfProgram, 2), (.stackUnderflow, 3), (.stackOverflow, 4),
       (.invalidMemoryAddress, 5), (.arithmeticOverflow, 6), (.budgetExhausted, 7), (.cancelled, 8)] ∧
    ((t.faultKind = .cancelled ∧ t.faultOpcode = none ∧ t.faultInfo = s.pc ∧ (hostLines s).abort = true) ∨
     (t.faultKind = .budgetExhausted ∧ t.faultOpcode = none ∧ t.faultInfo = s.steps ∧
       ∃ b, s.cfg.stepBudget = some b ∧ b ≤ s.steps) ∨
     (t.faultKind = .unexpectedEndOfProgram ∧ t.faultOpcode = none ∧ t.faultInfo = s.pc ∧
       (s.pc < 0 ∨ (s.prog.length : Int) ≤ s.pc)) ∨
     (∃ op, t.faultKind = .unknownOpcode ∧ t.faultOpcode = some op ∧ t.faultInfo = op ∧
       s.prog[s.pc.toNat]? = some op ∧ ∀ k, s.cfg.opcodeMap.value k ≠ op) ∨
     (∃ k, t.faultKind = .unexpectedEndOfProgram ∧ t.faultOpcode = some (s.cfg.opcodeMap.value k) ∧
       t.faultInfo = (s.prog.length : Int) ∧ s.prog[s.pc.toNat]? = some (s.cfg.opcodeMap.value k) ∧
       (s.prog.length : Int) ≤ s.pc + k.arity) ∨
     (∃ i, decode s.cfg.opcodeMap s.prog s.pc = .ok i ∧ t.faultOpcode = some (s.cfg.opcodeMap.value i.mnemonic) ∧
       ((t.faultKind = .stackUnderflow ∧ t.faultInfo = s.sp ∧
           ((i.mnemonic ∈ [.pop, .print, .jmplt, .jmpgt, .jmpeq, .store] ∧ s.sp < 0) ∨
             (i.mnemonic ∈ [.add, .sub, .mul] ∧ s.sp < 1))) ∨
        (t.faultKind = .stackOverflow ∧ t.faultInfo = s.sp + 1 ∧ i.mnemonic ∈ [.push, .load] ∧
           (s.cfg.stackCap : Int) ≤ s.sp + 1) ∨
        (t.faultKind = .invalidMemoryAddress ∧ ∃ addr : Int, (i = .load addr ∨ i = .store addr) ∧ t.faultInfo = addr ∧
           (addr < 0 ∨ (s.cfg.memCap : Int) ≤ addr)) ∨
        (t.faultKind = .arithmeticOverflow ∧ s.cfg.overflowPolicy = .fault ∧
           ∃ o, (i, o) ∈ [(Instr.add, AluOp.add), (Instr.sub, AluOp.sub), (Instr.mul, AluOp.mul)] ∧
             ¬ fitsW s.cfg.W (o.exact (underTop s) (top s)) ∧
             t.faultInfo = wrapW s.cfg.W (o.exact (underTop s) (top s))))))

/-- R166: under `wrap` no step raises ArithmeticOverflow. -/
def Obligations.NoArithmeticOverflowUnderWrap : Prop :=
  ∀ s t : State, s.cfg.overflowPolicy = .wrap → s.run = .running → step s = .next t →
    ¬ (t.run = .faulted ∧ t.faultKind = .arithmeticOverflow)

/-- R88, R89: a Running core becomes Halted by the instruction HALT and by nothing else. -/
def Obligations.OnlyHaltHalts : Prop :=
  ∀ s t : State, s.run = .running → step s = .next t →
    (t.run = .halted ↔ s.Free ∧ decode s.cfg.opcodeMap s.prog s.pc = .ok .halt)

/-- R31, R34, R192: no step, a reset among them, changes the program or the configuration. -/
def Obligations.NothingChangesTheProgram : Prop :=
  ∀ s t : State, step s = .next t → t.prog = s.prog ∧ t.cfg = s.cfg

/-- R32, R54: a data cell changes only in a step (without reset) of a completing STORE that names it, and then it holds
the value that was on top of the stack. -/
def Obligations.OnlyStoreWritesMemory : Prop :=
  ∀ (s t : State) (a : Nat), (hostLines s).reset = false → step s = .next t → t.mem.read a ≠ s.mem.read a →
    decode s.cfg.opcodeMap s.prog s.pc = .ok (.store (a : Int)) ∧ a < s.cfg.memCap ∧ t.run = .running ∧
      t.mem.read a = top s

/-- R30, R86: without reset a step only appends to the log: nothing, its Trace, or its Trace and one more event. -/
def Obligations.LogOnlyGrows : Prop :=
  ∀ s t : State, (hostLines s).reset = false → step s = .next t →
    t.events = s.events ∨
    ∃ i, decode s.cfg.opcodeMap s.prog s.pc = .ok i ∧ ∃ more : List Event, more.length ≤ 1 ∧
      (∀ e ∈ more, e.isTrace = false) ∧
      t.events = s.events ++ [.trace s.pc (s.cfg.opcodeMap.value i.mnemonic) i.operands (liveStack s)] ++ more

/-- R179: the trace is a pure observer. A core whose log has no Trace events steps as the one that has them. -/
def Obligations.TraceIsAPureObserver : Prop :=
  ∀ s t : State, step s = .next t → ∃ u, step s.eraseTraces = .next u ∧ u.eraseTraces = t.eraseTraces

/-- R24: no observation depends on a dead stack cell. Cores that differ only there step to cores that differ only
there, with the same log, run state, fault record and memory. -/
def Obligations.DeadStackCellsAreUnobservable : Prop :=
  ∀ s s' t : State, s.SameButDead s' → step s = .next t → ∃ t', step s' = .next t' ∧ t.SameButDead t'

/-! ### Instructions -/

/-- R100: PUSH. -/
def Obligations.PushEffect : Prop :=
  ∀ (v : Cell) (s : State),
    (∀ m : OpcodeMap, encode m (.push v) = [m.push, v]) ∧
    (-1 ≤ s.sp → s.sp + 1 < s.cfg.stackCap →
      ∃ t, exec (.push v) s = .next t ∧ liveStack t = liveStack s ++ [v] ∧
        s.StackStep t (s.pc + 2) (s.sp + 1) (s.sp + 1)) ∧
    (s.cfg.stackCap ≤ s.sp + 1 →
      exec (.push v) s = .next (raise .stackOverflow (some s.cfg.opcodeMap.push) (s.sp + 1) s))

/-- R101: POP. The stack's cells are not touched, the popped one among them. -/
def Obligations.PopEffect : Prop :=
  ∀ s : State,
    (∀ m : OpcodeMap, encode m .pop = [m.pop]) ∧
    (∀ below v, liveStack s = below ++ [v] →
      exec .pop s = .next { s with sp := s.sp - 1, pc := s.pc + 1 } ∧
        liveStack { s with sp := s.sp - 1, pc := s.pc + 1 } = below) ∧
    (s.sp < 0 → exec .pop s = .next (raise .stackUnderflow (some s.cfg.opcodeMap.pop) s.sp s))

/-- R101 (corner case), 90_conflicts.md C9: PUSH then POP leaves SP and the live stack as they were. -/
def Obligations.PushThenPopRestoresTheStack : Prop :=
  ∀ (v : Cell) (s : State), spInRange s → s.sp + 1 < s.cfg.stackCap →
    ∃ t u, exec (.push v) s = .next t ∧ t.run = s.run ∧ exec .pop t = .next u ∧ u.run = s.run ∧ u.sp = s.sp ∧
      liveStack u = liveStack s

/-- R110, R111, R112, R113: ADD, SUB and MUL. `a` is the value under the top and `b` the top. -/
def Obligations.ArithmeticEffect : Prop :=
  ∀ (i : Instr) (o : AluOp) (x : Int → Int → Int) (s : State),
    (i = .add ∧ o = .add ∧ x = fun a b => a + b) ∨ (i = .sub ∧ o = .sub ∧ x = fun a b => a - b) ∨
      (i = .mul ∧ o = .mul ∧ x = fun a b => a * b) →
    (∀ m : OpcodeMap, encode m .add = [m.add] ∧ encode m .sub = [m.sub] ∧ encode m .mul = [m.mul]) ∧
    (∀ (below : List Cell) (a b r : Int), liveStack s = below ++ [a, b] →
      (fitsW s.cfg.W (x a b) ∧ r = x a b) ∨
        (¬ fitsW s.cfg.W (x a b) ∧ s.cfg.overflowPolicy = .wrap ∧ r = wrapW s.cfg.W (x a b)) →
      alu s.cfg o a b = .ok r ∧
      ∃ t, exec i s = .next t ∧ liveStack t = below ++ [r] ∧
        s.StackStep t (s.pc + 1) (s.sp - 1) (s.sp - 1)) ∧
    (∀ (below : List Cell) (a b : Int), liveStack s = below ++ [a, b] → ¬ fitsW s.cfg.W (x a b) → s.cfg.overflowPolicy = .fault →
      exec i s = .next (raise .arithmeticOverflow (some (s.cfg.opcodeMap.value i.mnemonic)) (wrapW s.cfg.W (x a b)) s)) ∧
    (s.sp < 1 → exec i s = .next (raise .stackUnderflow (some (s.cfg.opcodeMap.value i.mnemonic)) s.sp s))

/-- R120: PRINT. -/
def Obligations.PrintEffect : Prop :=
  ∀ s : State,
    (∀ m : OpcodeMap, encode m .print = [m.print]) ∧
    (∀ below v, liveStack s = below ++ [v] →
      exec .print s = .next { s with sp := s.sp - 1, pc := s.pc + 1, events := s.events ++ [.print v] } ∧
        liveStack { s with sp := s.sp - 1, pc := s.pc + 1, events := s.events ++ [.print v] } = below) ∧
    (s.sp < 0 → exec .print s = .next (raise .stackUnderflow (some s.cfg.opcodeMap.print) s.sp s))

/-- R130: JMP writes pc and nothing else, for every target. -/
def Obligations.JumpEffect : Prop :=
  ∀ (addr : Int) (s : State),
    (∀ m : OpcodeMap, encode m (.jmp addr) = [m.jmp, addr]) ∧ exec (.jmp addr) s = .next { s with pc := addr }

/-- R131, R132, R133: JMPLT, JMPGT and JMPEQ peek at the top, compare it (signed) with `val`, and write pc and nothing
else. -/
def Obligations.ConditionalJumpEffect : Prop :=
  ∀ (val addr : Int) (s : State),
    (∀ m : OpcodeMap, encode m (.jmplt val addr) = [m.jmplt, val, addr] ∧
      encode m (.jmpgt val addr) = [m.jmpgt, val, addr] ∧ encode m (.jmpeq val addr) = [m.jmpeq, val, addr]) ∧
    (∀ (below : List Cell) (t : Int), liveStack s = below ++ [t] →
      exec (.jmplt val addr) s = .next { s with pc := if t < val then addr else s.pc + 3 } ∧
      exec (.jmpgt val addr) s = .next { s with pc := if t > val then addr else s.pc + 3 } ∧
      exec (.jmpeq val addr) s = .next { s with pc := if t = val then addr else s.pc + 3 }) ∧
    (s.sp < 0 →
      exec (.jmplt val addr) s = .next (raise .stackUnderflow (some s.cfg.opcodeMap.jmplt) s.sp s) ∧
      exec (.jmpgt val addr) s = .next (raise .stackUnderflow (some s.cfg.opcodeMap.jmpgt) s.sp s) ∧
      exec (.jmpeq val addr) s = .next (raise .stackUnderflow (some s.cfg.opcodeMap.jmpeq) s.sp s))

/-- R140, R172: LOAD. The address is checked before the stack. -/
def Obligations.LoadEffect : Prop :=
  ∀ (addr : Int) (s : State),
    (∀ m : OpcodeMap, encode m (.load addr) = [m.load, addr]) ∧
    (0 ≤ addr → addr < s.cfg.memCap → -1 ≤ s.sp → s.sp + 1 < s.cfg.stackCap →
      ∃ t, exec (.load addr) s = .next t ∧ liveStack t = liveStack s ++ [s.mem.read addr.toNat] ∧
        s.StackStep t (s.pc + 2) (s.sp + 1) (s.sp + 1)) ∧
    (addr < 0 ∨ s.cfg.memCap ≤ addr →
      exec (.load addr) s = .next (raise .invalidMemoryAddress (some s.cfg.opcodeMap.load) addr s)) ∧
    (0 ≤ addr → addr < s.cfg.memCap → s.cfg.stackCap ≤ s.sp + 1 →
      exec (.load addr) s = .next (raise .stackOverflow (some s.cfg.opcodeMap.load) (s.sp + 1) s))

/-- R141, R172: STORE pops the top into one cell; every other cell reads as before. -/
def Obligations.StoreEffect : Prop :=
  ∀ (addr : Int) (s : State),
    (∀ m : OpcodeMap, encode m (.store addr) = [m.store, addr]) ∧
    (∀ below v, 0 ≤ addr → addr < s.cfg.memCap → liveStack s = below ++ [v] →
      ∃ t, exec (.store addr) s = .next t ∧ t = { s with sp := s.sp - 1, pc := s.pc + 2, mem := t.mem } ∧
        liveStack t = below ∧ t.mem.read (dataIndex addr) = v ∧ (dataIndex addr : Int) = addr ∧
        ∀ a, a ≠ dataIndex addr → t.mem.read a = s.mem.read a) ∧
    (addr < 0 ∨ s.cfg.memCap ≤ addr →
      exec (.store addr) s = .next (raise .invalidMemoryAddress (some s.cfg.opcodeMap.store) addr s)) ∧
    (0 ≤ addr → addr < s.cfg.memCap → s.sp < 0 →
      exec (.store addr) s = .next (raise .stackUnderflow (some s.cfg.opcodeMap.store) s.sp s))

/-- R48, R141 (corner case): STORE then LOAD of the same address restores the live stack. -/
def Obligations.StoreThenLoadRestoresTheStack : Prop :=
  ∀ (addr : Int) (v : Cell) (below : List Cell) (s : State), spInRange s → 0 ≤ addr → addr < s.cfg.memCap →
    liveStack s = below ++ [v] →
    ∃ t u, exec (.store addr) s = .next t ∧ t.run = s.run ∧ exec (.load addr) t = .next u ∧ u.run = s.run ∧
      liveStack u = below ++ [v] ∧ u.sp = s.sp

/-- R150, R151: HALT. The dump is every cell in ascending order. -/
def Obligations.HaltEffect : Prop :=
  ∀ s : State,
    (∀ m : OpcodeMap, encode m .halt = [m.halt]) ∧
    ∃ cells : List Cell, cells.length = s.cfg.memCap ∧ (∀ a, a < s.cfg.memCap → cells[a]? = some (s.mem.read a)) ∧
      exec .halt s = .next { s with pc := s.pc + 1, run := .halted, events := s.events ++ [.dump cells] }

/-- R102: an instruction that pops or peeks k values raises StackUnderflow(SP) exactly when fewer are live (STORE: and
its address is valid, R172), and then writes nothing. -/
def Obligations.UnderflowExactlyWhenTooFewValues : Prop :=
  ∀ (i : Instr) (k : Nat) (s : State), s.run = .running →
    (i.mnemonic ∈ [.pop, .print, .jmplt, .jmpgt, .jmpeq, .store] ∧ k = 1) ∨
      (i.mnemonic ∈ [.add, .sub, .mul] ∧ k = 2) ∨ (i.mnemonic ∈ [.push, .jmp, .load, .halt] ∧ k = 0 ∧ -1 ≤ s.sp) →
    ((∃ t, exec i s = .next t ∧ t.run = .faulted ∧ t.faultKind = .stackUnderflow) ↔
      s.sp + 1 < k ∧ ∀ addr : Int, i = .store addr → validDataAddr s addr) ∧
    (∀ t, exec i s = .next t → t.run = .faulted → t.faultKind = .stackUnderflow →
      t = raise .stackUnderflow (some (s.cfg.opcodeMap.value i.mnemonic)) s.sp s)

/-- R103: only PUSH and LOAD raise StackOverflow, with the index they would have written, exactly when the stack is full
(LOAD: and its address is valid, R172). -/
def Obligations.OverflowExactlyWhenFull : Prop :=
  ∀ (i : Instr) (s : State), s.run = .running →
    ((∃ t, exec i s = .next t ∧ t.run = .faulted ∧ t.faultKind = .stackOverflow) ↔
      i.mnemonic ∈ [.push, .load] ∧ s.cfg.stackCap ≤ s.sp + 1 ∧ ∀ addr : Int, i = .load addr → validDataAddr s addr) ∧
    (∀ t, exec i s = .next t → t.run = .faulted → t.faultKind = .stackOverflow →
      t = raise .stackOverflow (some (s.cfg.opcodeMap.value i.mnemonic)) (s.sp + 1) s)

/-- R104: no instruction takes SP out of [-1, STACK_CAP - 1]. -/
def Obligations.StackNeverWrapsAround : Prop :=
  ∀ (i : Instr) (s t : State), spInRange s → exec i s = .next t → spInRange t

/-- R23: how SP changes when an instruction completes, and the one stack cell it writes, if any. -/
def Obligations.StackEffectTable : Prop :=
  ∀ (i : Instr) (s t : State), s.run = .running → spInRange s → exec i s = .next t → t.run ≠ .faulted →
    (i.mnemonic ∈ [.push, .load] → t.sp = s.sp + 1 ∧ ∀ j : Nat, (j : Int) ≠ s.sp + 1 → stackCell t j = stackCell s j) ∧
    (i.mnemonic ∈ [.pop, .print, .store] → t.sp = s.sp - 1 ∧ ∀ j, stackCell t j = stackCell s j) ∧
    (i.mnemonic ∈ [.add, .sub, .mul] →
      t.sp = s.sp - 1 ∧ ∀ j : Nat, (j : Int) ≠ s.sp - 1 → stackCell t j = stackCell s j) ∧
    (i.mnemonic ∈ [.jmp, .jmplt, .jmpgt, .jmpeq, .halt] → t.sp = s.sp ∧ ∀ j, stackCell t j = stackCell s j)

/-- R25, R85, R87: a completing instruction leaves pc just past itself, unless it is a jump that goes to its target. -/
def Obligations.PcGoesPastTheInstruction : Prop :=
  ∀ (i : Instr) (s t : State), s.run = .running → exec i s = .next t → t.run ≠ .faulted →
    t.pc = s.pc + 1 + i.mnemonic.arity ∨
      ∃ val addr : Int, (i = .jmp addr ∨ i = .jmplt val addr ∨ i = .jmpgt val addr ∨ i = .jmpeq val addr) ∧ t.pc = addr

/-- R134: a branch to a target outside the program (JMP, or a conditional jump that is taken) completes, and the fault is
the next fetch's, with the target as its info. -/
def Obligations.BadTargetFaultsAtTheNextFetch : Prop :=
  ∀ (s : State) (i : Instr) (addr : Int), s.Free → decode s.cfg.opcodeMap s.prog s.pc = .ok i →
    (i = .jmp addr ∨ ∃ (below : List Cell) (v val : Int), liveStack s = below ++ [v] ∧
      ((i = .jmplt val addr ∧ v < val) ∨ (i = .jmpgt val addr ∧ v > val) ∨ (i = .jmpeq val addr ∧ v = val))) →
    addr < 0 ∨ (s.prog.length : Int) ≤ addr →
    ∃ t, step s = .next t ∧ t.run = .running ∧ t.pc = addr ∧
      (t.Free → ∃ u, step t = .next u ∧ u.run = .faulted ∧ u.faultKind = .unexpectedEndOfProgram ∧
        u.faultPc = addr ∧ u.faultOpcode = none ∧ u.faultInfo = addr ∧ u.events = t.events)

/-! ### Arithmetic -/

/-- R9: `wrap_W(x)` is the one integer in the W-bit range that is congruent to x modulo 2^W. -/
def Obligations.WrapIsTheCongruentCell : Prop :=
  ∀ (W : Nat) (x y : Int), 1 ≤ W →
    (y = wrapW W x ↔ fitsW W y ∧ ((2 ^ W : Nat) : Int) ∣ x - y)

/-- R114: under `wrap` the result is the same whether the operands are read as signed or as unsigned. -/
def Obligations.SignedAndUnsignedResultsAgree : Prop :=
  ∀ (W : Nat) (o : AluOp) (a b : Int), 1 ≤ W →
    wrapW W (o.exact a b) = wrapW W (o.exact (unsignedW W a) (unsignedW W b))

/-- R115: when ADD overflows the operands have one sign and the wrapped sum has the other; SUB of 1 from the least value
and MUL of the least value by -1 overflow. -/
def Obligations.OverflowSigns : Prop :=
  ∀ (W : Nat) (a b : Int), 1 ≤ W → fitsW W a → fitsW W b →
    (¬ fitsW W (AluOp.add.exact a b) → (a < 0 ↔ b < 0) ∧ (wrapW W (AluOp.add.exact a b) < 0 ↔ ¬ a < 0)) ∧
    ¬ fitsW W (AluOp.sub.exact (cellMin W) 1) ∧ ¬ fitsW W (AluOp.mul.exact (cellMin W) (-1))

/-! ### The host's side -/

/-- R33, R160: the status view of a core that is not Running shows its registers (each that fits its field; log 7 and
log 8) under the codes of the spec. -/
def Obligations.StatusViewShowsTheRegisters : Prop :=
  ∀ (s : State) (draw : Nat), s.Inv → s.run ≠ .running → s.steps < 2 ^ 32 → fitsW s.cfg.W s.faultInfo →
    (∀ op, s.faultOpcode = some op → fitsW s.cfg.W op) → fitsW s.cfg.W s.faultPc → fitsW s.cfg.W s.sp →
    (readStatus draw s).run = (if s.run = .halted then 1 else 2) ∧
    (readStatus draw s).faultPc = s.faultPc ∧
    (readStatus draw s).faultOpcodeValid = s.faultOpcode.isSome ∧
    (readStatus draw s).faultOpcode = s.faultOpcode.getD 0 ∧
    (readStatus draw s).faultInfo = s.faultInfo ∧
    (readStatus draw s).pc = s.pc ∧ (readStatus draw s).sp = s.sp ∧ (readStatus draw s).steps = s.steps ∧
    ((readStatus draw s).faultKind = 0 ↔ s.run ≠ .faulted) ∧
    (s.faultKind, (readStatus draw s).faultKind) ∈
      [(FaultKind.none, 0), (.unknownOpcode, 1), (.unexpectedEndOfProgram, 2), (.stackUnderflow, 3),
       (.stackOverflow, 4), (.invalidMemoryAddress, 5), (.arithmeticOverflow, 6), (.budgetExhausted, 7),
       (.cancelled, 8)]

/-- R53, R181: while Running the host reads no memory, loads no program and changes no configuration; when not Running
it may, and changes nothing else. How the model turns a forbidden move away is its choice (log 18). -/
def Obligations.HostMovesOnlyWhenStopped : Prop :=
  ∀ (s : State) (prog : List Cell) (cfg : Config) (a : Nat),
    (s.run = .running → (∃ r, hostReadMemory a s = .error r) ∧ (∃ r, hostLoad prog s = .refused r) ∧
      ∃ r, hostConfigure cfg prog s = .refused r) ∧
    (s.run ≠ .running →
      (a < s.cfg.memCap → hostReadMemory a s = .ok (s.mem.read a)) ∧
      (s.cfg.Admissible prog.length → (∀ c ∈ prog, fitsW s.cfg.W c) → hostLoad prog s = .next { s with prog := prog }) ∧
      (cfg.Admissible prog.length → (∀ c ∈ prog, fitsW cfg.W c) →
        hostConfigure cfg prog s = .next { s with cfg := cfg, prog := prog }))
end

