-- ==== Sys2Proof/Laws/Decode.lean ====
section
/-! SUPPORT. The catalog lookup, the operand taker and the decoder, each characterised once (30_encoding.md). -/

namespace Sys2Proof

@[simp] theorem mem_all (k : Mnemonic) : k ∈ Mnemonic.all := by cases k <;> decide

/-- Distinct values: equal values are one opcode's. -/
theorem value_injective (m : OpcodeMap) (h : m.values.Nodup) (j k : Mnemonic) (hv : m.value j = m.value k) : j = k :=
  List.inj_on_of_nodup_map h (mem_all j) (mem_all k) hv

/-- The lookup finds only a row with that value. -/
theorem value_of_lookup (m : OpcodeMap) (op : Cell) (k : Mnemonic) (h : m.lookup op = some k) : m.value k = op := by
  simpa using List.find?_some h

/-- The lookup fails only where no row has that value. -/
theorem lookup_none_iff (m : OpcodeMap) (op : Cell) : m.lookup op = none ↔ ∀ k, m.value k ≠ op := by
  simp [OpcodeMap.lookup]

/-- With distinct values the lookup of a row's value is that row. -/
theorem lookup_value (m : OpcodeMap) (h : m.values.Nodup) (k : Mnemonic) : m.lookup (m.value k) = some k := by
  cases hl : m.lookup (m.value k) with
  | none => exact absurd rfl ((lookup_none_iff m _).mp hl k)
  | some j => rw [value_injective m h j k (value_of_lookup m _ j hl)]

theorem operands_length (i : Instr) : i.operands.length = i.mnemonic.arity := by cases i <;> rfl

/-- The operand cells taken are the instruction's, and it is of the row asked for. -/
theorem takeOperands_some (k : Mnemonic) (cells rest : List Cell) (i : Instr)
    (h : takeOperands k cells = some (i, rest)) : i.mnemonic = k ∧ cells = i.operands ++ rest := by
  revert h
  fun_cases takeOperands <;> (intro h; simp at h) <;> (obtain ⟨rfl, rfl⟩ := h; exact ⟨rfl, rfl⟩)

/-- Taking succeeds exactly where the operand cells exist. -/
theorem takeOperands_none_iff (k : Mnemonic) (cells : List Cell) :
    takeOperands k cells = none ↔ cells.length < k.arity := by
  fun_cases takeOperands <;> simp [Mnemonic.arity]

@[simp] theorem takeOperands_operands (i : Instr) (rest : List Cell) :
    takeOperands i.mnemonic (i.operands ++ rest) = some (i, rest) := by cases i <;> rfl

/-- The three answers of the cell decoder. -/
theorem decodeCells_cons (m : OpcodeMap) (op : Cell) (cells : List Cell) :
    (∃ k i rest, m.lookup op = some k ∧ takeOperands k cells = some (i, rest) ∧
      decodeCells m (op :: cells) = .ok (i, rest)) ∨
    (∃ k, m.lookup op = some k ∧ takeOperands k cells = none ∧
      decodeCells m (op :: cells) = .error (.missingOperand op)) ∨
    (m.lookup op = none ∧ decodeCells m (op :: cells) = .error (.unknownOpcode op)) := by
  cases hl : m.lookup op with
  | none => exact .inr (.inr ⟨rfl, by simp [decodeCells, hl]⟩)
  | some k =>
    cases ht : takeOperands k cells with
    | none => exact .inr (.inl ⟨k, rfl, ht, by simp [decodeCells, hl, ht]⟩)
    | some r => exact .inl ⟨k, r.1, r.2, rfl, by simp [ht], by simp [decodeCells, hl, ht]⟩

/-- Inside the program the decoder reads the opcode cell at pc and the cells after it. -/
theorem drop_eq_cons_of_getElem? (prog : List Cell) (n : Nat) (op : Cell) (h : prog[n]? = some op) :
    prog.drop n = op :: prog.drop (n + 1) := by
  obtain ⟨hn, rfl⟩ := List.getElem?_eq_some_iff.mp h
  exact List.drop_eq_getElem_cons hn

/-- What each answer of the decoder says of the program: no cell at pc, an opcode of no row, operand cells past the
end, or an instruction whose cells stand at pc. -/
theorem decode_cases (m : OpcodeMap) (prog : List Cell) (pc : Int) :
    (decode m prog pc = .error .noCell ∧ (pc < 0 ∨ (prog.length : Int) ≤ pc)) ∨
    (∃ op, decode m prog pc = .error (.unknownOpcode op) ∧ 0 ≤ pc ∧ prog[pc.toNat]? = some op ∧
      ∀ k, m.value k ≠ op) ∨
    (∃ k, decode m prog pc = .error (.missingOperand (m.value k)) ∧ 0 ≤ pc ∧
      prog[pc.toNat]? = some (m.value k) ∧ m.lookup (m.value k) = some k ∧ (prog.length : Int) ≤ pc + k.arity) ∨
    (∃ i rest, decode m prog pc = .ok i ∧ 0 ≤ pc ∧ prog[pc.toNat]? = some (m.value i.mnemonic) ∧
      m.lookup (m.value i.mnemonic) = some i.mnemonic ∧ prog.drop pc.toNat = encode m i ++ rest ∧
      pc + i.mnemonic.arity < prog.length) := by
  unfold decode
  by_cases hb : pc < 0 ∨ (prog.length : Int) ≤ pc
  · exact .inl ⟨by rw [if_pos hb], hb⟩
  · obtain ⟨n, rfl⟩ : ∃ n : Nat, pc = n := ⟨pc.toNat, by omega⟩
    have hn : n < prog.length := by omega
    have hlen : (prog.drop (n + 1)).length = prog.length - (n + 1) := List.length_drop
    have hop : prog[n]? = some prog[n] := List.getElem?_eq_getElem hn
    rw [if_neg hb, Int.toNat_natCast, drop_eq_cons_of_getElem? prog n _ hop]
    rcases decodeCells_cons m prog[n] (prog.drop (n + 1)) with
      ⟨k, i, rest, hl, ht, hd⟩ | ⟨k, hl, ht, hd⟩ | ⟨hl, hd⟩
    · have hv := value_of_lookup m _ k hl
      obtain ⟨hk, hcells⟩ := takeOperands_some k _ rest i ht
      have harity := congrArg List.length hcells
      rw [List.length_append, operands_length, hlen] at harity
      refine .inr (.inr (.inr ⟨i, rest, by rw [hd], by omega, ?_, ?_, ?_, by omega⟩))
      · rw [hk, hv, hop]
      · rw [hk, hv, hl]
      · rw [encode, hk, hv, hcells]; rfl
    · have hv := value_of_lookup m _ k hl
      have := (takeOperands_none_iff k _).mp ht
      refine .inr (.inr (.inl ⟨k, by rw [hd, hv], by omega, by rw [hv, hop], by rw [hv, hl], by omega⟩))
    · exact .inr (.inl ⟨prog[n], by rw [hd], by omega, hop, (lookup_none_iff m _).mp hl⟩)

end Sys2Proof
end

