-- ==== Sys2Proof/Laws/Memory.lean ====
section
/-! SUPPORT. The laws of cells by index and of the data memory: a read after a write, and that every operation keeps the
canonical form. -/

namespace Sys2Proof.Machine

/-! ### Cells by index -/

theorem find_insert (k j : Nat) (v : Cell) (m : CellMap) :
    CellMap.find j (CellMap.insert k v m) = if j = k then some v else CellMap.find j m := by
  induction m with
  | nil =>
    by_cases h : j = k
    · simp [CellMap.insert, CellMap.find, h]
    · simp [CellMap.insert, CellMap.find, h, Ne.symm h]
  | cons e m ih =>
    obtain ⟨a, w⟩ := e
    simp only [CellMap.insert]
    split_ifs <;> simp only [CellMap.find, ih] <;> split_ifs <;> first | rfl | omega

theorem find_erase (k j : Nat) (m : CellMap) :
    CellMap.find j (CellMap.erase k m) = if j = k then none else CellMap.find j m := by
  induction m with
  | nil => simp [CellMap.erase, CellMap.find]
  | cons e m ih =>
    obtain ⟨a, w⟩ := e
    unfold CellMap.erase at ih ⊢
    by_cases hak : a = k
    · subst hak
      rw [List.filter_cons_of_neg (by simp), ih, CellMap.find]
      split_ifs <;> first | rfl | omega
    · rw [List.filter_cons_of_pos (by simpa using hak), CellMap.find, CellMap.find, ih]
      split_ifs <;> first | rfl | omega

/-- What an insertion lists: the new entry, and of the old ones. -/
theorem mem_insert (k : Nat) (v : Cell) (m : CellMap) (e : Nat × Cell) (h : e ∈ CellMap.insert k v m) :
    e = (k, v) ∨ e ∈ m := by
  induction m with
  | nil => simpa [CellMap.insert] using h
  | cons f m ih =>
    obtain ⟨a, w⟩ := f
    simp only [CellMap.insert] at h
    split_ifs at h <;> simp only [List.mem_cons] at h ⊢ <;> tauto

theorem mem_erase (k : Nat) (m : CellMap) (e : Nat × Cell) (h : e ∈ CellMap.erase k m) : e ∈ m :=
  List.mem_of_mem_filter h

theorem rising_insert (k : Nat) (v : Cell) (m : CellMap) (hm : CellMap.rising m) :
    CellMap.rising (CellMap.insert k v m) := by
  induction m with
  | nil => simp [CellMap.insert]
  | cons f m ih =>
    obtain ⟨a, w⟩ := f
    obtain ⟨ha, hm'⟩ := List.pairwise_cons.mp hm
    simp only [CellMap.insert]
    split_ifs with h1 h2
    · subst h1; exact List.pairwise_cons.mpr ⟨ha, hm'⟩
    · refine List.pairwise_cons.mpr ⟨fun e he => ?_, hm⟩
      rcases List.mem_cons.mp he with rfl | he
      · exact h2
      · exact lt_trans h2 (ha e he)
    · refine List.pairwise_cons.mpr ⟨fun e he => ?_, ih hm'⟩
      rcases mem_insert k v m e he with rfl | he
      · show a < k; omega
      · exact ha e he

theorem rising_erase (k : Nat) (m : CellMap) (hm : CellMap.rising m) : CellMap.rising (CellMap.erase k m) :=
  List.Pairwise.filter _ hm

/-- An entry of a rising list is found under its key. -/
theorem find_of_mem (m : CellMap) (hm : CellMap.rising m) (e : Nat × Cell) (he : e ∈ m) :
    CellMap.find e.1 m = some e.2 := by
  induction m with
  | nil => simp at he
  | cons f m ih =>
    obtain ⟨a, w⟩ := f
    obtain ⟨ha, hm'⟩ := List.pairwise_cons.mp hm
    rcases List.mem_cons.mp he with rfl | he
    · simp [CellMap.find]
    · have := ha e he
      rw [CellMap.find, if_neg (by omega)]
      exact ih hm' he

/-- What is found is listed. -/
theorem mem_of_find (k : Nat) (v : Cell) (m : CellMap) (h : CellMap.find k m = some v) : (k, v) ∈ m := by
  induction m with
  | nil => simp [CellMap.find] at h
  | cons f m ih =>
    obtain ⟨a, w⟩ := f
    simp only [CellMap.find] at h
    split_ifs at h with h1
    · simp_all
    · exact List.mem_cons_of_mem _ (ih h)

/-! ### The data memory -/

/-- A write keeps the canonical form. -/
theorem write_wf (m : Memory) (a : Nat) (v : Cell) (hm : Memory.wf m) : Memory.wf (m.write a v) := by
  unfold Memory.write
  split_ifs with hv
  · exact ⟨rising_erase a m hm.1, fun e he => hm.2 e (mem_erase a m e he)⟩
  · refine ⟨rising_insert a v m hm.1, fun e he => ?_⟩
    rcases mem_insert a v m e he with rfl | he
    · exact hv
    · exact hm.2 e he

/-- A read after a write: the value written there, every other cell as before. -/
theorem read_write (m : Memory) (a b : Nat) (v : Cell) :
    (m.write a v).read b = if b = a then v else m.read b := by
  unfold Memory.write Memory.read
  by_cases hv : v = Memory.unlisted
  · rw [if_pos hv, find_erase]
    split_ifs <;> simp [hv]
  · rw [if_neg hv, find_insert]
    split_ifs <;> simp

/-- What a write lists: the new entry, and of the old ones. -/
theorem mem_write (m : Memory) (a : Nat) (v : Cell) (e : Nat × Cell) (h : e ∈ m.write a v) :
    e = (a, v) ∨ e ∈ m := by
  unfold Memory.write at h
  split_ifs at h
  · exact .inr (mem_erase a m e h)
  · exact mem_insert a v m e h

@[simp] theorem read_nil (a : Nat) : Memory.read [] a = 0 := rfl

/-- A cell read is 0 or a listed value. -/
theorem read_cases (m : Memory) (a : Nat) : m.read a = 0 ∨ (a, m.read a) ∈ m := by
  unfold Memory.read
  cases h : CellMap.find a m with
  | none => exact .inl rfl
  | some v => exact .inr (by simpa using mem_of_find a v m h)

theorem reset_memory_wf : Memory.wf State.reset.mem := by decide

end Sys2Proof.Machine
end

