-- ==== Sys2Proof/Laws/Numbers.lean ====
section
/-! SUPPORT. The arithmetic of `wrapW` and of the serialisation (00_scope.md R9, 20_memory.md R43). -/

namespace Sys2Proof

theorem two_pow_eq_double (W : Nat) (h : 1 ≤ W) : (2 ^ W : Nat) = 2 * 2 ^ (W - 1) := by
  obtain ⟨k, rfl⟩ : ∃ k, W = k + 1 := ⟨W - 1, by omega⟩
  simp [Nat.pow_succ, Nat.mul_comm]

/-- The half range is positive. -/
theorem half_pos (W : Nat) : 0 < ((2 ^ (W - 1) : Nat) : Int) := by positivity

/-- `wrapW` lands in the W-bit range. -/
theorem wrapW_fits (W : Nat) (x : Int) (h : 1 ≤ W) : fitsW W (wrapW W x) := by
  have hd := two_pow_eq_double W h
  have hp := half_pos W
  have h0 := Int.emod_nonneg (x + ((2 ^ (W - 1) : Nat) : Int)) (b := ((2 ^ W : Nat) : Int)) (by omega)
  have h1 := Int.emod_lt_of_pos (x + ((2 ^ (W - 1) : Nat) : Int)) (b := ((2 ^ W : Nat) : Int)) (by omega)
  unfold fitsW cellMin cellMax wrapW
  constructor <;> omega

/-- `wrapW` stays in its argument's class modulo 2^W. -/
theorem wrapW_emod (W : Nat) (x : Int) : wrapW W x % ((2 ^ W : Nat) : Int) = x % ((2 ^ W : Nat) : Int) := by
  unfold wrapW
  rw [Int.sub_emod, Int.emod_emod, ← Int.sub_emod, Int.add_sub_cancel]

/-- A W-bit value is its own wrap. -/
theorem wrapW_of_fits (W : Nat) (x : Int) (h : 1 ≤ W) (hx : fitsW W x) : wrapW W x = x := by
  have hd := two_pow_eq_double W h
  have hp := half_pos W
  unfold fitsW cellMin cellMax at hx
  unfold wrapW
  rw [Int.emod_eq_of_lt (by omega) (by omega)]
  omega

/-- `wrapW` depends on the class of its argument alone. -/
theorem wrapW_congr (W : Nat) (x y : Int) (h : x % ((2 ^ W : Nat) : Int) = y % ((2 ^ W : Nat) : Int)) :
    wrapW W x = wrapW W y := by
  unfold wrapW
  rw [Int.add_emod, h, ← Int.add_emod]

/-- The unsigned reading is in the cell's class. -/
theorem unsignedW_emod (W : Nat) (x : Int) :
    (unsignedW W x : Int) % ((2 ^ W : Nat) : Int) = x % ((2 ^ W : Nat) : Int) := by
  have hp : (0 : Int) < ((2 ^ W : Nat) : Int) := by positivity
  unfold unsignedW
  rw [Int.toNat_of_nonneg (Int.emod_nonneg _ (by omega)), Int.emod_emod]

theorem littleEndian_length (n x : Nat) : (littleEndian n x).length = n := by
  induction n generalizing x with
  | zero => rfl
  | succ n ih => simp [littleEndian, ih]

theorem ofLittleEndian_littleEndian (n x : Nat) : ofLittleEndian (littleEndian n x) = x % 256 ^ n := by
  induction n generalizing x with
  | zero => simp [littleEndian, ofLittleEndian, Nat.mod_one]
  | succ n ih =>
    simp only [littleEndian, ofLittleEndian, ih, BitVec.toNat_ofNat]
    rw [show 256 ^ (n + 1) = 256 * 256 ^ n by ring, Nat.mod_mul]

/-- Byte `j` of a number, least significant first. -/
theorem littleEndian_getElem? (n x j : Nat) (h : j < n) :
    (littleEndian n x)[j]? = some (BitVec.ofNat 8 (x / 256 ^ j)) := by
  induction n generalizing x j with
  | zero => omega
  | succ n ih =>
    cases j with
    | zero => simp [littleEndian]
    | succ j =>
      rw [littleEndian, List.getElem?_cons_succ, ih _ _ (by omega), Nat.div_div_eq_div_mul, Nat.pow_succ']

theorem cellToBytes_length (W pad : Nat) (c : Cell) : (cellToBytes W pad c).length = bytesPerCell W :=
  littleEndian_length _ _

theorem programToBytes_length (W : Nat) (pad : Nat → Nat) (prog : List Cell) :
    (programToBytes W pad prog).length = prog.length * bytesPerCell W := by
  induction prog generalizing pad with
  | nil => simp [programToBytes]
  | cons c cells ih => simp [programToBytes, cellToBytes_length, ih, Nat.succ_mul, Nat.add_comm]

/-- The image of two runs of cells is the one's image and then the other's, whose paddings go on counting. -/
theorem programToBytes_append (W : Nat) (pad : Nat → Nat) (p q : List Cell) :
    programToBytes W pad (p ++ q) = programToBytes W pad p ++ programToBytes W (fun i => pad (i + p.length)) q := by
  induction p generalizing pad with
  | nil => rfl
  | cons c cells ih => simp [programToBytes, ih, Nat.add_assoc]

end Sys2Proof
end

