-- ==== Sys2Proof/Laws/State.lean ====
section
/-! SUPPORT. What each named update of State leaves in each field: one lemma per field per update, true by rfl, so that no
later proof unfolds a record update. -/

namespace Sys2Proof.Machine

/-! ### stackWrite -/

@[simp] theorem stackWrite_cfg (i : Nat) (v : Cell) (s : State) :
    (stackWrite i v s).cfg = s.cfg := rfl
@[simp] theorem stackWrite_prog (i : Nat) (v : Cell) (s : State) :
    (stackWrite i v s).prog = s.prog := rfl
@[simp] theorem stackWrite_pc (i : Nat) (v : Cell) (s : State) :
    (stackWrite i v s).pc = s.pc := rfl
@[simp] theorem stackWrite_sp (i : Nat) (v : Cell) (s : State) :
    (stackWrite i v s).sp = s.sp := rfl
@[simp] theorem stackWrite_stack (i : Nat) (v : Cell) (s : State) :
    (stackWrite i v s).stack = CellMap.insert i v s.stack := rfl
@[simp] theorem stackWrite_mem (i : Nat) (v : Cell) (s : State) :
    (stackWrite i v s).mem = s.mem := rfl
@[simp] theorem stackWrite_run (i : Nat) (v : Cell) (s : State) :
    (stackWrite i v s).run = s.run := rfl
@[simp] theorem stackWrite_faultKind (i : Nat) (v : Cell) (s : State) :
    (stackWrite i v s).faultKind = s.faultKind := rfl
@[simp] theorem stackWrite_faultPc (i : Nat) (v : Cell) (s : State) :
    (stackWrite i v s).faultPc = s.faultPc := rfl
@[simp] theorem stackWrite_faultOpcode (i : Nat) (v : Cell) (s : State) :
    (stackWrite i v s).faultOpcode = s.faultOpcode := rfl
@[simp] theorem stackWrite_faultInfo (i : Nat) (v : Cell) (s : State) :
    (stackWrite i v s).faultInfo = s.faultInfo := rfl
@[simp] theorem stackWrite_steps (i : Nat) (v : Cell) (s : State) :
    (stackWrite i v s).steps = s.steps := rfl
@[simp] theorem stackWrite_events (i : Nat) (v : Cell) (s : State) :
    (stackWrite i v s).events = s.events := rfl
@[simp] theorem stackWrite_hostIn (i : Nat) (v : Cell) (s : State) :
    (stackWrite i v s).hostIn = s.hostIn := rfl

/-! ### memWrite -/

@[simp] theorem memWrite_cfg (a : Nat) (v : Cell) (s : State) :
    (memWrite a v s).cfg = s.cfg := rfl
@[simp] theorem memWrite_prog (a : Nat) (v : Cell) (s : State) :
    (memWrite a v s).prog = s.prog := rfl
@[simp] theorem memWrite_pc (a : Nat) (v : Cell) (s : State) :
    (memWrite a v s).pc = s.pc := rfl
@[simp] theorem memWrite_sp (a : Nat) (v : Cell) (s : State) :
    (memWrite a v s).sp = s.sp := rfl
@[simp] theorem memWrite_stack (a : Nat) (v : Cell) (s : State) :
    (memWrite a v s).stack = s.stack := rfl
@[simp] theorem memWrite_mem (a : Nat) (v : Cell) (s : State) :
    (memWrite a v s).mem = s.mem.write a v := rfl
@[simp] theorem memWrite_run (a : Nat) (v : Cell) (s : State) :
    (memWrite a v s).run = s.run := rfl
@[simp] theorem memWrite_faultKind (a : Nat) (v : Cell) (s : State) :
    (memWrite a v s).faultKind = s.faultKind := rfl
@[simp] theorem memWrite_faultPc (a : Nat) (v : Cell) (s : State) :
    (memWrite a v s).faultPc = s.faultPc := rfl
@[simp] theorem memWrite_faultOpcode (a : Nat) (v : Cell) (s : State) :
    (memWrite a v s).faultOpcode = s.faultOpcode := rfl
@[simp] theorem memWrite_faultInfo (a : Nat) (v : Cell) (s : State) :
    (memWrite a v s).faultInfo = s.faultInfo := rfl
@[simp] theorem memWrite_steps (a : Nat) (v : Cell) (s : State) :
    (memWrite a v s).steps = s.steps := rfl
@[simp] theorem memWrite_events (a : Nat) (v : Cell) (s : State) :
    (memWrite a v s).events = s.events := rfl
@[simp] theorem memWrite_hostIn (a : Nat) (v : Cell) (s : State) :
    (memWrite a v s).hostIn = s.hostIn := rfl

/-! ### setSp -/

@[simp] theorem setSp_cfg (x : Int) (s : State) :
    (setSp x s).cfg = s.cfg := rfl
@[simp] theorem setSp_prog (x : Int) (s : State) :
    (setSp x s).prog = s.prog := rfl
@[simp] theorem setSp_pc (x : Int) (s : State) :
    (setSp x s).pc = s.pc := rfl
@[simp] theorem setSp_sp (x : Int) (s : State) :
    (setSp x s).sp = x := rfl
@[simp] theorem setSp_stack (x : Int) (s : State) :
    (setSp x s).stack = s.stack := rfl
@[simp] theorem setSp_mem (x : Int) (s : State) :
    (setSp x s).mem = s.mem := rfl
@[simp] theorem setSp_run (x : Int) (s : State) :
    (setSp x s).run = s.run := rfl
@[simp] theorem setSp_faultKind (x : Int) (s : State) :
    (setSp x s).faultKind = s.faultKind := rfl
@[simp] theorem setSp_faultPc (x : Int) (s : State) :
    (setSp x s).faultPc = s.faultPc := rfl
@[simp] theorem setSp_faultOpcode (x : Int) (s : State) :
    (setSp x s).faultOpcode = s.faultOpcode := rfl
@[simp] theorem setSp_faultInfo (x : Int) (s : State) :
    (setSp x s).faultInfo = s.faultInfo := rfl
@[simp] theorem setSp_steps (x : Int) (s : State) :
    (setSp x s).steps = s.steps := rfl
@[simp] theorem setSp_events (x : Int) (s : State) :
    (setSp x s).events = s.events := rfl
@[simp] theorem setSp_hostIn (x : Int) (s : State) :
    (setSp x s).hostIn = s.hostIn := rfl

/-! ### goto -/

@[simp] theorem goto_cfg (x : Int) (s : State) :
    (goto x s).cfg = s.cfg := rfl
@[simp] theorem goto_prog (x : Int) (s : State) :
    (goto x s).prog = s.prog := rfl
@[simp] theorem goto_pc (x : Int) (s : State) :
    (goto x s).pc = x := rfl
@[simp] theorem goto_sp (x : Int) (s : State) :
    (goto x s).sp = s.sp := rfl
@[simp] theorem goto_stack (x : Int) (s : State) :
    (goto x s).stack = s.stack := rfl
@[simp] theorem goto_mem (x : Int) (s : State) :
    (goto x s).mem = s.mem := rfl
@[simp] theorem goto_run (x : Int) (s : State) :
    (goto x s).run = s.run := rfl
@[simp] theorem goto_faultKind (x : Int) (s : State) :
    (goto x s).faultKind = s.faultKind := rfl
@[simp] theorem goto_faultPc (x : Int) (s : State) :
    (goto x s).faultPc = s.faultPc := rfl
@[simp] theorem goto_faultOpcode (x : Int) (s : State) :
    (goto x s).faultOpcode = s.faultOpcode := rfl
@[simp] theorem goto_faultInfo (x : Int) (s : State) :
    (goto x s).faultInfo = s.faultInfo := rfl
@[simp] theorem goto_steps (x : Int) (s : State) :
    (goto x s).steps = s.steps := rfl
@[simp] theorem goto_events (x : Int) (s : State) :
    (goto x s).events = s.events := rfl
@[simp] theorem goto_hostIn (x : Int) (s : State) :
    (goto x s).hostIn = s.hostIn := rfl

/-! ### emit -/

@[simp] theorem emit_cfg (e : Event) (s : State) :
    (emit e s).cfg = s.cfg := rfl
@[simp] theorem emit_prog (e : Event) (s : State) :
    (emit e s).prog = s.prog := rfl
@[simp] theorem emit_pc (e : Event) (s : State) :
    (emit e s).pc = s.pc := rfl
@[simp] theorem emit_sp (e : Event) (s : State) :
    (emit e s).sp = s.sp := rfl
@[simp] theorem emit_stack (e : Event) (s : State) :
    (emit e s).stack = s.stack := rfl
@[simp] theorem emit_mem (e : Event) (s : State) :
    (emit e s).mem = s.mem := rfl
@[simp] theorem emit_run (e : Event) (s : State) :
    (emit e s).run = s.run := rfl
@[simp] theorem emit_faultKind (e : Event) (s : State) :
    (emit e s).faultKind = s.faultKind := rfl
@[simp] theorem emit_faultPc (e : Event) (s : State) :
    (emit e s).faultPc = s.faultPc := rfl
@[simp] theorem emit_faultOpcode (e : Event) (s : State) :
    (emit e s).faultOpcode = s.faultOpcode := rfl
@[simp] theorem emit_faultInfo (e : Event) (s : State) :
    (emit e s).faultInfo = s.faultInfo := rfl
@[simp] theorem emit_steps (e : Event) (s : State) :
    (emit e s).steps = s.steps := rfl
@[simp] theorem emit_events (e : Event) (s : State) :
    (emit e s).events = s.events ++ [e] := rfl
@[simp] theorem emit_hostIn (e : Event) (s : State) :
    (emit e s).hostIn = s.hostIn := rfl

/-! ### halt -/

@[simp] theorem halt_cfg (s : State) :
    (halt s).cfg = s.cfg := rfl
@[simp] theorem halt_prog (s : State) :
    (halt s).prog = s.prog := rfl
@[simp] theorem halt_pc (s : State) :
    (halt s).pc = s.pc := rfl
@[simp] theorem halt_sp (s : State) :
    (halt s).sp = s.sp := rfl
@[simp] theorem halt_stack (s : State) :
    (halt s).stack = s.stack := rfl
@[simp] theorem halt_mem (s : State) :
    (halt s).mem = s.mem := rfl
@[simp] theorem halt_run (s : State) :
    (halt s).run = .halted := rfl
@[simp] theorem halt_faultKind (s : State) :
    (halt s).faultKind = s.faultKind := rfl
@[simp] theorem halt_faultPc (s : State) :
    (halt s).faultPc = s.faultPc := rfl
@[simp] theorem halt_faultOpcode (s : State) :
    (halt s).faultOpcode = s.faultOpcode := rfl
@[simp] theorem halt_faultInfo (s : State) :
    (halt s).faultInfo = s.faultInfo := rfl
@[simp] theorem halt_steps (s : State) :
    (halt s).steps = s.steps := rfl
@[simp] theorem halt_events (s : State) :
    (halt s).events = s.events := rfl
@[simp] theorem halt_hostIn (s : State) :
    (halt s).hostIn = s.hostIn := rfl

/-! ### push -/

@[simp] theorem push_cfg (v : Cell) (s : State) :
    (push v s).cfg = s.cfg := rfl
@[simp] theorem push_prog (v : Cell) (s : State) :
    (push v s).prog = s.prog := rfl
@[simp] theorem push_pc (v : Cell) (s : State) :
    (push v s).pc = s.pc := rfl
@[simp] theorem push_sp (v : Cell) (s : State) :
    (push v s).sp = s.sp + 1 := rfl
@[simp] theorem push_stack (v : Cell) (s : State) :
    (push v s).stack = CellMap.insert (s.sp + 1).toNat v s.stack := rfl
@[simp] theorem push_mem (v : Cell) (s : State) :
    (push v s).mem = s.mem := rfl
@[simp] theorem push_run (v : Cell) (s : State) :
    (push v s).run = s.run := rfl
@[simp] theorem push_faultKind (v : Cell) (s : State) :
    (push v s).faultKind = s.faultKind := rfl
@[simp] theorem push_faultPc (v : Cell) (s : State) :
    (push v s).faultPc = s.faultPc := rfl
@[simp] theorem push_faultOpcode (v : Cell) (s : State) :
    (push v s).faultOpcode = s.faultOpcode := rfl
@[simp] theorem push_faultInfo (v : Cell) (s : State) :
    (push v s).faultInfo = s.faultInfo := rfl
@[simp] theorem push_steps (v : Cell) (s : State) :
    (push v s).steps = s.steps := rfl
@[simp] theorem push_events (v : Cell) (s : State) :
    (push v s).events = s.events := rfl
@[simp] theorem push_hostIn (v : Cell) (s : State) :
    (push v s).hostIn = s.hostIn := rfl

/-! ### drop -/

@[simp] theorem drop_cfg (s : State) :
    (drop s).cfg = s.cfg := rfl
@[simp] theorem drop_prog (s : State) :
    (drop s).prog = s.prog := rfl
@[simp] theorem drop_pc (s : State) :
    (drop s).pc = s.pc := rfl
@[simp] theorem drop_sp (s : State) :
    (drop s).sp = s.sp - 1 := rfl
@[simp] theorem drop_stack (s : State) :
    (drop s).stack = s.stack := rfl
@[simp] theorem drop_mem (s : State) :
    (drop s).mem = s.mem := rfl
@[simp] theorem drop_run (s : State) :
    (drop s).run = s.run := rfl
@[simp] theorem drop_faultKind (s : State) :
    (drop s).faultKind = s.faultKind := rfl
@[simp] theorem drop_faultPc (s : State) :
    (drop s).faultPc = s.faultPc := rfl
@[simp] theorem drop_faultOpcode (s : State) :
    (drop s).faultOpcode = s.faultOpcode := rfl
@[simp] theorem drop_faultInfo (s : State) :
    (drop s).faultInfo = s.faultInfo := rfl
@[simp] theorem drop_steps (s : State) :
    (drop s).steps = s.steps := rfl
@[simp] theorem drop_events (s : State) :
    (drop s).events = s.events := rfl
@[simp] theorem drop_hostIn (s : State) :
    (drop s).hostIn = s.hostIn := rfl

/-! ### replaceTwo -/

@[simp] theorem replaceTwo_cfg (r : Cell) (s : State) :
    (replaceTwo r s).cfg = s.cfg := rfl
@[simp] theorem replaceTwo_prog (r : Cell) (s : State) :
    (replaceTwo r s).prog = s.prog := rfl
@[simp] theorem replaceTwo_pc (r : Cell) (s : State) :
    (replaceTwo r s).pc = s.pc := rfl
@[simp] theorem replaceTwo_sp (r : Cell) (s : State) :
    (replaceTwo r s).sp = s.sp - 1 := rfl
@[simp] theorem replaceTwo_stack (r : Cell) (s : State) :
    (replaceTwo r s).stack = CellMap.insert (s.sp - 1).toNat r s.stack := rfl
@[simp] theorem replaceTwo_mem (r : Cell) (s : State) :
    (replaceTwo r s).mem = s.mem := rfl
@[simp] theorem replaceTwo_run (r : Cell) (s : State) :
    (replaceTwo r s).run = s.run := rfl
@[simp] theorem replaceTwo_faultKind (r : Cell) (s : State) :
    (replaceTwo r s).faultKind = s.faultKind := rfl
@[simp] theorem replaceTwo_faultPc (r : Cell) (s : State) :
    (replaceTwo r s).faultPc = s.faultPc := rfl
@[simp] theorem replaceTwo_faultOpcode (r : Cell) (s : State) :
    (replaceTwo r s).faultOpcode = s.faultOpcode := rfl
@[simp] theorem replaceTwo_faultInfo (r : Cell) (s : State) :
    (replaceTwo r s).faultInfo = s.faultInfo := rfl
@[simp] theorem replaceTwo_steps (r : Cell) (s : State) :
    (replaceTwo r s).steps = s.steps := rfl
@[simp] theorem replaceTwo_events (r : Cell) (s : State) :
    (replaceTwo r s).events = s.events := rfl
@[simp] theorem replaceTwo_hostIn (r : Cell) (s : State) :
    (replaceTwo r s).hostIn = s.hostIn := rfl

/-! ### raise -/

@[simp] theorem raise_cfg (k : FaultKind) (op : Option Cell) (x : Int) (s : State) :
    (raise k op x s).cfg = s.cfg := rfl
@[simp] theorem raise_prog (k : FaultKind) (op : Option Cell) (x : Int) (s : State) :
    (raise k op x s).prog = s.prog := rfl
@[simp] theorem raise_pc (k : FaultKind) (op : Option Cell) (x : Int) (s : State) :
    (raise k op x s).pc = s.pc := rfl
@[simp] theorem raise_sp (k : FaultKind) (op : Option Cell) (x : Int) (s : State) :
    (raise k op x s).sp = s.sp := rfl
@[simp] theorem raise_stack (k : FaultKind) (op : Option Cell) (x : Int) (s : State) :
    (raise k op x s).stack = s.stack := rfl
@[simp] theorem raise_mem (k : FaultKind) (op : Option Cell) (x : Int) (s : State) :
    (raise k op x s).mem = s.mem := rfl
@[simp] theorem raise_run (k : FaultKind) (op : Option Cell) (x : Int) (s : State) :
    (raise k op x s).run = .faulted := rfl
@[simp] theorem raise_faultKind (k : FaultKind) (op : Option Cell) (x : Int) (s : State) :
    (raise k op x s).faultKind = k := rfl
@[simp] theorem raise_faultPc (k : FaultKind) (op : Option Cell) (x : Int) (s : State) :
    (raise k op x s).faultPc = s.pc := rfl
@[simp] theorem raise_faultOpcode (k : FaultKind) (op : Option Cell) (x : Int) (s : State) :
    (raise k op x s).faultOpcode = op := rfl
@[simp] theorem raise_faultInfo (k : FaultKind) (op : Option Cell) (x : Int) (s : State) :
    (raise k op x s).faultInfo = x := rfl
@[simp] theorem raise_steps (k : FaultKind) (op : Option Cell) (x : Int) (s : State) :
    (raise k op x s).steps = s.steps := rfl
@[simp] theorem raise_events (k : FaultKind) (op : Option Cell) (x : Int) (s : State) :
    (raise k op x s).events = s.events := rfl
@[simp] theorem raise_hostIn (k : FaultKind) (op : Option Cell) (x : Int) (s : State) :
    (raise k op x s).hostIn = s.hostIn := rfl

/-! ### dispatchFault -/

@[simp] theorem dispatchFault_cfg (m : Mnemonic) (k : FaultKind) (x : Int) (s : State) :
    (dispatchFault m k x s).cfg = s.cfg := rfl
@[simp] theorem dispatchFault_prog (m : Mnemonic) (k : FaultKind) (x : Int) (s : State) :
    (dispatchFault m k x s).prog = s.prog := rfl
@[simp] theorem dispatchFault_pc (m : Mnemonic) (k : FaultKind) (x : Int) (s : State) :
    (dispatchFault m k x s).pc = s.pc := rfl
@[simp] theorem dispatchFault_sp (m : Mnemonic) (k : FaultKind) (x : Int) (s : State) :
    (dispatchFault m k x s).sp = s.sp := rfl
@[simp] theorem dispatchFault_stack (m : Mnemonic) (k : FaultKind) (x : Int) (s : State) :
    (dispatchFault m k x s).stack = s.stack := rfl
@[simp] theorem dispatchFault_mem (m : Mnemonic) (k : FaultKind) (x : Int) (s : State) :
    (dispatchFault m k x s).mem = s.mem := rfl
@[simp] theorem dispatchFault_run (m : Mnemonic) (k : FaultKind) (x : Int) (s : State) :
    (dispatchFault m k x s).run = .faulted := rfl
@[simp] theorem dispatchFault_faultKind (m : Mnemonic) (k : FaultKind) (x : Int) (s : State) :
    (dispatchFault m k x s).faultKind = k := rfl
@[simp] theorem dispatchFault_faultPc (m : Mnemonic) (k : FaultKind) (x : Int) (s : State) :
    (dispatchFault m k x s).faultPc = s.pc := rfl
@[simp] theorem dispatchFault_faultOpcode (m : Mnemonic) (k : FaultKind) (x : Int) (s : State) :
    (dispatchFault m k x s).faultOpcode = some (s.cfg.opcodeMap.value m) := rfl
@[simp] theorem dispatchFault_faultInfo (m : Mnemonic) (k : FaultKind) (x : Int) (s : State) :
    (dispatchFault m k x s).faultInfo = x := rfl
@[simp] theorem dispatchFault_steps (m : Mnemonic) (k : FaultKind) (x : Int) (s : State) :
    (dispatchFault m k x s).steps = s.steps := rfl
@[simp] theorem dispatchFault_events (m : Mnemonic) (k : FaultKind) (x : Int) (s : State) :
    (dispatchFault m k x s).events = s.events := rfl
@[simp] theorem dispatchFault_hostIn (m : Mnemonic) (k : FaultKind) (x : Int) (s : State) :
    (dispatchFault m k x s).hostIn = s.hostIn := rfl

/-! ### countStep -/

@[simp] theorem countStep_cfg (s : State) :
    (countStep s).cfg = s.cfg := rfl
@[simp] theorem countStep_prog (s : State) :
    (countStep s).prog = s.prog := rfl
@[simp] theorem countStep_pc (s : State) :
    (countStep s).pc = s.pc := rfl
@[simp] theorem countStep_sp (s : State) :
    (countStep s).sp = s.sp := rfl
@[simp] theorem countStep_stack (s : State) :
    (countStep s).stack = s.stack := rfl
@[simp] theorem countStep_mem (s : State) :
    (countStep s).mem = s.mem := rfl
@[simp] theorem countStep_run (s : State) :
    (countStep s).run = s.run := rfl
@[simp] theorem countStep_faultKind (s : State) :
    (countStep s).faultKind = s.faultKind := rfl
@[simp] theorem countStep_faultPc (s : State) :
    (countStep s).faultPc = s.faultPc := rfl
@[simp] theorem countStep_faultOpcode (s : State) :
    (countStep s).faultOpcode = s.faultOpcode := rfl
@[simp] theorem countStep_faultInfo (s : State) :
    (countStep s).faultInfo = s.faultInfo := rfl
@[simp] theorem countStep_steps (s : State) :
    (countStep s).steps = s.steps + 1 := rfl
@[simp] theorem countStep_events (s : State) :
    (countStep s).events = s.events := rfl
@[simp] theorem countStep_hostIn (s : State) :
    (countStep s).hostIn = s.hostIn := rfl

/-! ### sampleHost -/

@[simp] theorem sampleHost_cfg (s : State) :
    (sampleHost s).cfg = s.cfg := rfl
@[simp] theorem sampleHost_prog (s : State) :
    (sampleHost s).prog = s.prog := rfl
@[simp] theorem sampleHost_pc (s : State) :
    (sampleHost s).pc = s.pc := rfl
@[simp] theorem sampleHost_sp (s : State) :
    (sampleHost s).sp = s.sp := rfl
@[simp] theorem sampleHost_stack (s : State) :
    (sampleHost s).stack = s.stack := rfl
@[simp] theorem sampleHost_mem (s : State) :
    (sampleHost s).mem = s.mem := rfl
@[simp] theorem sampleHost_run (s : State) :
    (sampleHost s).run = s.run := rfl
@[simp] theorem sampleHost_faultKind (s : State) :
    (sampleHost s).faultKind = s.faultKind := rfl
@[simp] theorem sampleHost_faultPc (s : State) :
    (sampleHost s).faultPc = s.faultPc := rfl
@[simp] theorem sampleHost_faultOpcode (s : State) :
    (sampleHost s).faultOpcode = s.faultOpcode := rfl
@[simp] theorem sampleHost_faultInfo (s : State) :
    (sampleHost s).faultInfo = s.faultInfo := rfl
@[simp] theorem sampleHost_steps (s : State) :
    (sampleHost s).steps = s.steps := rfl
@[simp] theorem sampleHost_events (s : State) :
    (sampleHost s).events = s.events := rfl
@[simp] theorem sampleHost_hostIn (s : State) :
    (sampleHost s).hostIn = s.hostIn.tail := rfl

/-! ### boot -/

@[simp] theorem boot_cfg (c : Config) (p : List Cell) (h : List HostInput) :
    (State.boot c p h).cfg = c := rfl
@[simp] theorem boot_prog (c : Config) (p : List Cell) (h : List HostInput) :
    (State.boot c p h).prog = p := rfl
@[simp] theorem boot_pc (c : Config) (p : List Cell) (h : List HostInput) :
    (State.boot c p h).pc = 0 := rfl
@[simp] theorem boot_sp (c : Config) (p : List Cell) (h : List HostInput) :
    (State.boot c p h).sp = -1 := rfl
@[simp] theorem boot_stack (c : Config) (p : List Cell) (h : List HostInput) :
    (State.boot c p h).stack = [] := rfl
@[simp] theorem boot_mem (c : Config) (p : List Cell) (h : List HostInput) :
    (State.boot c p h).mem = [] := rfl
@[simp] theorem boot_run (c : Config) (p : List Cell) (h : List HostInput) :
    (State.boot c p h).run = .running := rfl
@[simp] theorem boot_faultKind (c : Config) (p : List Cell) (h : List HostInput) :
    (State.boot c p h).faultKind = .none := rfl
@[simp] theorem boot_faultPc (c : Config) (p : List Cell) (h : List HostInput) :
    (State.boot c p h).faultPc = 0 := rfl
@[simp] theorem boot_faultOpcode (c : Config) (p : List Cell) (h : List HostInput) :
    (State.boot c p h).faultOpcode = none := rfl
@[simp] theorem boot_faultInfo (c : Config) (p : List Cell) (h : List HostInput) :
    (State.boot c p h).faultInfo = 0 := rfl
@[simp] theorem boot_steps (c : Config) (p : List Cell) (h : List HostInput) :
    (State.boot c p h).steps = 0 := rfl
@[simp] theorem boot_events (c : Config) (p : List Cell) (h : List HostInput) :
    (State.boot c p h).events = [] := rfl
@[simp] theorem boot_hostIn (c : Config) (p : List Cell) (h : List HostInput) :
    (State.boot c p h).hostIn = h := rfl

/-! ### coreReset -/

@[simp] theorem coreReset_eq_boot (s : State) : coreReset s = State.boot s.cfg s.prog s.hostIn := rfl

end Sys2Proof.Machine
end

