-- ==== Sys2Proof/Laws/Stack.lean ====
section
/-! SUPPORT. The value stack: what each operation does to the live stack S[0..SP] (00_scope.md R11, R14). -/

namespace Sys2Proof.Machine

/-! ### What is read depends on the stack, SP and the configuration alone -/

theorem stackCell_congr (s t : State) (hs : t.stack = s.stack) (hc : t.cfg = s.cfg) (i : Nat) :
    stackCell t i = stackCell s i := by
  simp only [stackCell, hs, hc]

theorem liveStack_congr (s t : State) (hs : t.stack = s.stack) (hc : t.cfg = s.cfg) (hp : t.sp = s.sp) :
    liveStack t = liveStack s := by
  simp only [liveStack, depth, hp, List.map_inj_left]
  exact fun i _ => stackCell_congr s t hs hc i

@[simp] theorem liveStack_goto (x : Cell) (s : State) : liveStack (goto x s) = liveStack s := rfl
@[simp] theorem liveStack_emit (e : Event) (s : State) : liveStack (emit e s) = liveStack s := rfl
@[simp] theorem liveStack_halt (s : State) : liveStack (halt s) = liveStack s := rfl
@[simp] theorem liveStack_memWrite (a : Nat) (v : Cell) (s : State) : liveStack (memWrite a v s) = liveStack s := rfl
@[simp] theorem liveStack_raise (k : FaultKind) (op : Option Cell) (x : Int) (s : State) :
    liveStack (raise k op x s) = liveStack s := rfl
@[simp] theorem liveStack_sampleHost (s : State) : liveStack (sampleHost s) = liveStack s := rfl
@[simp] theorem top_emit (e : Event) (s : State) : top (emit e s) = top s := rfl
@[simp] theorem top_sampleHost (s : State) : top (sampleHost s) = top s := rfl
@[simp] theorem underTop_emit (e : Event) (s : State) : underTop (emit e s) = underTop s := rfl
@[simp] theorem underTop_sampleHost (s : State) : underTop (sampleHost s) = underTop s := rfl

theorem stackCell_stackWrite (i j : Nat) (v : Cell) (s : State) :
    stackCell (stackWrite i v s) j = if j = i then v else stackCell s j := by
  simp only [stackCell, stackWrite_stack, stackWrite_cfg, find_insert]
  split_ifs <;> rfl

theorem stackCell_push (j : Nat) (v : Cell) (s : State) :
    stackCell (push v s) j = if j = (s.sp + 1).toNat then v else stackCell s j :=
  stackCell_stackWrite _ j v s

theorem stackCell_replaceTwo (j : Nat) (r : Cell) (s : State) :
    stackCell (replaceTwo r s) j = if j = (s.sp - 1).toNat then r else stackCell s j :=
  stackCell_stackWrite _ j r s

/-! ### The live stack -/

/-- The live stack of a depth, as a function of what its cells hold. -/
theorem liveStack_eq_map (s : State) (n : Nat) (h : s.sp + 1 = n) :
    liveStack s = (List.range n).map (stackCell s) := by
  simp [liveStack, depth, h]

theorem liveStack_length (s : State) : (liveStack s).length = (s.sp + 1).toNat := by
  simp [liveStack, depth]

/-- Nothing is live when SP is below 0. -/
theorem liveStack_of_neg (s : State) (h : s.sp < 0) : liveStack s = [] := by
  have : (s.sp + 1).toNat = 0 := by omega
  simp [liveStack, depth, this]

/-- PUSH and LOAD put one value on top. -/
theorem liveStack_push (v : Cell) (s : State) (h : -1 ≤ s.sp) : liveStack (push v s) = liveStack s ++ [v] := by
  obtain ⟨n, hn⟩ : ∃ n : Nat, s.sp + 1 = n := ⟨(s.sp + 1).toNat, by omega⟩
  rw [liveStack_eq_map s n hn, liveStack_eq_map (push v s) (n + 1) (by simp [hn]), List.range_succ, List.map_append]
  have hlast : stackCell (push v s) n = v := by rw [stackCell_push, if_pos (by omega)]
  simp only [List.map_cons, List.map_nil, hlast, List.append_cancel_right_eq, List.map_inj_left, List.mem_range]
  intro i hi
  rw [stackCell_push, if_neg (by omega)]

/-- The live stack is what is left after a pop, and the top. -/
theorem liveStack_eq_drop_top (s : State) (h : 0 ≤ s.sp) : liveStack s = liveStack (drop s) ++ [top s] := by
  obtain ⟨n, hn⟩ : ∃ n : Nat, s.sp = n := ⟨s.sp.toNat, by omega⟩
  rw [liveStack_eq_map s (n + 1) (by simp [hn]), liveStack_eq_map (drop s) n (by simp [hn]), List.range_succ,
    List.map_append]
  have : top s = stackCell s n := by simp [top, hn]
  simp only [this, List.map_cons, List.map_nil]
  rfl

theorem top_drop (s : State) : top (drop s) = underTop s := rfl

/-- With two values live: what lies under them, the deeper, the top. -/
theorem liveStack_eq_two (s : State) (h : 1 ≤ s.sp) :
    liveStack s = liveStack (drop (drop s)) ++ [underTop s, top s] := by
  rw [liveStack_eq_drop_top s (by omega), liveStack_eq_drop_top (drop s) (by simp; omega), top_drop]
  simp

/-- ADD, SUB and MUL put one value in the place of two. -/
theorem liveStack_replaceTwo (r : Cell) (s : State) (h : 1 ≤ s.sp) :
    liveStack (replaceTwo r s) = liveStack (drop (drop s)) ++ [r] := by
  obtain ⟨n, hn⟩ : ∃ n : Nat, s.sp = n + 1 := ⟨(s.sp - 1).toNat, by omega⟩
  rw [liveStack_eq_map (replaceTwo r s) (n + 1) (by simp [hn]), liveStack_eq_map (drop (drop s)) n (by simp [hn]),
    List.range_succ, List.map_append]
  have hlast : stackCell (replaceTwo r s) n = r := by rw [stackCell_replaceTwo, if_pos (by omega)]
  simp only [List.map_cons, List.map_nil, hlast, List.append_cancel_right_eq, List.map_inj_left, List.mem_range]
  intro i hi
  rw [stackCell_replaceTwo, if_neg (by omega)]
  rfl

/-- A live stack with a top: SP is not below 0, and the parts are the operations'. -/
theorem liveStack_snoc (s : State) (below : List Cell) (v : Cell) (h : liveStack s = below ++ [v]) :
    0 ≤ s.sp ∧ top s = v ∧ liveStack (drop s) = below := by
  have hsp : 0 ≤ s.sp := by
    by_contra hneg
    rw [liveStack_of_neg s (by omega)] at h
    simp at h
  rw [liveStack_eq_drop_top s hsp] at h
  have := List.append_inj' h rfl
  exact ⟨hsp, by simpa using this.2, this.1⟩

/-- A live stack with two values. -/
theorem liveStack_snoc_two (s : State) (below : List Cell) (a b : Cell) (h : liveStack s = below ++ [a, b]) :
    1 ≤ s.sp ∧ underTop s = a ∧ top s = b ∧ liveStack (drop (drop s)) = below := by
  obtain ⟨h0, htop, hrest⟩ := liveStack_snoc s (below ++ [a]) b (by simpa using h)
  obtain ⟨h1, hunder, hbelow⟩ := liveStack_snoc (drop s) below a hrest
  rw [top_drop] at hunder
  exact ⟨by simpa using h1, hunder, htop, hbelow⟩

theorem liveStack_getLast? (s : State) :
    (liveStack s).getLast? = if 0 ≤ s.sp then some (top s) else none := by
  split_ifs with h
  · rw [liveStack_eq_drop_top s h]; simp
  · rw [liveStack_of_neg s (by omega)]; rfl

end Sys2Proof.Machine
end

