-- ==== Sys2Proof/Laws/Exec.lean ====
section
/-! SUPPORT. Everything dispatch can answer, said once: an instruction completes in its own way or raises one of its
faults (40_cycle.md R87, 60_exceptions.md R160, R172). Later proofs take these cases and never unfold a meaning. -/

namespace Sys2Proof.Machine

/-- The number of values an instruction pops or peeks (41_stack.md R102). -/
def needs : Instr → Nat
  | .push _ => 0
  | .pop => 1
  | .add => 2
  | .sub => 2
  | .mul => 2
  | .print => 1
  | .jmp _ => 0
  | .jmplt _ _ => 1
  | .jmpgt _ _ => 1
  | .jmpeq _ _ => 1
  | .load _ => 0
  | .store _ => 1
  | .halt => 0

/-- The ALU operation of an instruction. -/
def aluOp : Instr → Option AluOp
  | .push _ => none
  | .pop => none
  | .add => some .add
  | .sub => some .sub
  | .mul => some .mul
  | .print => none
  | .jmp _ => none
  | .jmplt _ _ => none
  | .jmpgt _ _ => none
  | .jmpeq _ _ => none
  | .load _ => none
  | .store _ => none
  | .halt => none

/-- The faults of dispatch: which instruction raises which kind, with which info, and when. -/
inductive Raises (s : State) : Instr → FaultKind → Int → Prop where
  | loadAddr (addr : Int) (h : ¬ validDataAddr s addr) : Raises s (.load addr) .invalidMemoryAddress addr
  | storeAddr (addr : Int) (h : ¬ validDataAddr s addr) : Raises s (.store addr) .invalidMemoryAddress addr
  | underflow (i : Instr) (h0 : needs i ≠ 0) (h : ¬ holds (needs i) s)
      (hv : ∀ addr, i = .store addr → validDataAddr s addr) : Raises s i .stackUnderflow s.sp
  | pushRoom (v : Cell) (h : ¬ hasRoom s) : Raises s (.push v) .stackOverflow (s.sp + 1)
  | loadRoom (addr : Int) (hv : validDataAddr s addr) (h : ¬ hasRoom s) :
      Raises s (.load addr) .stackOverflow (s.sp + 1)
  | arith (i : Instr) (o : AluOp) (info : Cell) (ho : aluOp i = some o) (h : holds 2 s)
      (ha : alu s.cfg o (underTop s) (top s) = .error info) : Raises s i .arithmeticOverflow info

/-- The completions of dispatch: the state each instruction leaves when it raises nothing. -/
inductive Completes (s : State) : Instr → State → Prop where
  | push (v : Cell) (h : hasRoom s) : Completes s (.push v) (goto (nextPc .push s) (push v s))
  | pop (h : holds 1 s) : Completes s .pop (goto (nextPc .pop s) (drop s))
  | alu (i : Instr) (o : AluOp) (r : Cell) (ho : aluOp i = some o) (h : holds 2 s)
      (ha : alu s.cfg o (underTop s) (top s) = .ok r) :
      Completes s i (goto (nextPc i.mnemonic s) (replaceTwo r s))
  | print (h : holds 1 s) : Completes s .print (goto (nextPc .print s) (emit (.print (top s)) (drop s)))
  | jmp (addr : Int) : Completes s (.jmp addr) (goto addr s)
  | jmplt (val addr : Int) (h : holds 1 s) :
      Completes s (.jmplt val addr) (goto (if Cond.lt.taken (top s) val then addr else nextPc .jmplt s) s)
  | jmpgt (val addr : Int) (h : holds 1 s) :
      Completes s (.jmpgt val addr) (goto (if Cond.gt.taken (top s) val then addr else nextPc .jmpgt s) s)
  | jmpeq (val addr : Int) (h : holds 1 s) :
      Completes s (.jmpeq val addr) (goto (if Cond.eq.taken (top s) val then addr else nextPc .jmpeq s) s)
  | load (addr : Int) (hv : validDataAddr s addr) (h : hasRoom s) :
      Completes s (.load addr) (goto (nextPc .load s) (push (s.mem.read (dataIndex addr)) s))
  | store (addr : Int) (hv : validDataAddr s addr) (h : holds 1 s) :
      Completes s (.store addr) (goto (nextPc .store s) (memWrite (dataIndex addr) (top s) (drop s)))
  | halt : Completes s .halt (emit (.dump (memCells s)) (halt (goto (nextPc .halt s) s)))

/-- The three checks, each said once. -/
theorem checkAddr_eq (k : Mnemonic) (addr : Int) (s : State) (go : Out) :
    (validDataAddr s addr ∧ checkAddr k addr s go = go) ∨
      (¬ validDataAddr s addr ∧ checkAddr k addr s go = .next (dispatchFault k .invalidMemoryAddress addr s)) := by
  by_cases h : validDataAddr s addr
  · exact .inl ⟨h, if_pos h⟩
  · exact .inr ⟨h, if_neg h⟩

theorem checkHolds_eq (k : Mnemonic) (n : Nat) (s : State) (go : Out) :
    (holds n s ∧ checkHolds k n s go = go) ∨
      (¬ holds n s ∧ checkHolds k n s go = .next (dispatchFault k .stackUnderflow s.sp s)) := by
  by_cases h : holds n s
  · exact .inl ⟨h, if_pos h⟩
  · exact .inr ⟨h, if_neg h⟩

theorem checkRoom_eq (k : Mnemonic) (s : State) (go : Out) :
    (hasRoom s ∧ checkRoom k s go = go) ∨
      (¬ hasRoom s ∧ checkRoom k s go = .next (dispatchFault k .stackOverflow (s.sp + 1) s)) := by
  by_cases h : hasRoom s
  · exact .inl ⟨h, if_pos h⟩
  · exact .inr ⟨h, if_neg h⟩

/-- An instruction either completes or raises, and never stops the model. -/
theorem aluInstr_cases (i : Instr) (o : AluOp) (s : State) (ho : aluOp i = some o) (hn : needs i = 2)
    (hs : ∀ addr, i ≠ .store addr) :
    (∃ t, aluInstr i.mnemonic o s = .next t ∧ Completes s i t) ∨
      ∃ k info, aluInstr i.mnemonic o s = .next (dispatchFault i.mnemonic k info s) ∧ Raises s i k info := by
  rcases checkHolds_eq i.mnemonic 2 s
    (match alu s.cfg o (underTop s) (top s) with
     | .ok r => .next (goto (nextPc i.mnemonic s) (replaceTwo r s))
     | .error info => .next (dispatchFault i.mnemonic .arithmeticOverflow info s)) with ⟨h, e⟩ | ⟨h, e⟩
  · cases ha : alu s.cfg o (underTop s) (top s) with
    | ok r => rw [ha] at e; exact .inl ⟨_, (by rw [aluInstr, ha, e]), .alu i o r ho h ha⟩
    | error info => rw [ha] at e; exact .inr ⟨_, info, (by rw [aluInstr, ha, e]), .arith i o info ho h ha⟩
  · exact .inr ⟨_, _, e, .underflow i (by omega) (by rw [hn]; exact h) fun a ha => absurd ha (hs a)⟩

theorem exec_cases (i : Instr) (s : State) :
    (∃ t, exec i s = .next t ∧ Completes s i t) ∨
      ∃ k info, exec i s = .next (dispatchFault i.mnemonic k info s) ∧ Raises s i k info := by
  cases i with
  | push v =>
    rcases checkRoom_eq .push s (.next (goto (nextPc .push s) (push v s))) with ⟨h, e⟩ | ⟨h, e⟩
    · exact .inl ⟨_, e, .push v h⟩
    · exact .inr ⟨_, _, e, .pushRoom v h⟩
  | pop =>
    rcases checkHolds_eq .pop 1 s (.next (goto (nextPc .pop s) (drop s))) with ⟨h, e⟩ | ⟨h, e⟩
    · exact .inl ⟨_, e, .pop h⟩
    · exact .inr ⟨_, _, e, .underflow .pop (by simp [needs]) h (by simp)⟩
  | add => exact aluInstr_cases .add .add s rfl rfl (by simp)
  | sub => exact aluInstr_cases .sub .sub s rfl rfl (by simp)
  | mul => exact aluInstr_cases .mul .mul s rfl rfl (by simp)
  | print =>
    rcases checkHolds_eq .print 1 s (.next (goto (nextPc .print s) (emit (.print (top s)) (drop s)))) with
      ⟨h, e⟩ | ⟨h, e⟩
    · exact .inl ⟨_, e, .print h⟩
    · exact .inr ⟨_, _, e, .underflow .print (by simp [needs]) h (by simp)⟩
  | jmp addr => exact .inl ⟨_, rfl, .jmp addr⟩
  | jmplt val addr =>
    rcases checkHolds_eq .jmplt 1 s
      (.next (goto (if Cond.lt.taken (top s) val then addr else nextPc .jmplt s) s)) with ⟨h, e⟩ | ⟨h, e⟩
    · exact .inl ⟨_, e, .jmplt val addr h⟩
    · exact .inr ⟨_, _, e, .underflow (.jmplt val addr) (by simp [needs]) h (by simp)⟩
  | jmpgt val addr =>
    rcases checkHolds_eq .jmpgt 1 s
      (.next (goto (if Cond.gt.taken (top s) val then addr else nextPc .jmpgt s) s)) with ⟨h, e⟩ | ⟨h, e⟩
    · exact .inl ⟨_, e, .jmpgt val addr h⟩
    · exact .inr ⟨_, _, e, .underflow (.jmpgt val addr) (by simp [needs]) h (by simp)⟩
  | jmpeq val addr =>
    rcases checkHolds_eq .jmpeq 1 s
      (.next (goto (if Cond.eq.taken (top s) val then addr else nextPc .jmpeq s) s)) with ⟨h, e⟩ | ⟨h, e⟩
    · exact .inl ⟨_, e, .jmpeq val addr h⟩
    · exact .inr ⟨_, _, e, .underflow (.jmpeq val addr) (by simp [needs]) h (by simp)⟩
  | load addr =>
    rcases checkAddr_eq .load addr s
      (checkRoom .load s (.next (goto (nextPc .load s) (push (s.mem.read (dataIndex addr)) s)))) with
      ⟨hv, e⟩ | ⟨hv, e⟩
    · rcases checkRoom_eq .load s (.next (goto (nextPc .load s) (push (s.mem.read (dataIndex addr)) s))) with
        ⟨h, e'⟩ | ⟨h, e'⟩
      · exact .inl ⟨_, e.trans e', .load addr hv h⟩
      · exact .inr ⟨_, _, e.trans e', .loadRoom addr hv h⟩
    · exact .inr ⟨_, _, e, .loadAddr addr hv⟩
  | store addr =>
    rcases checkAddr_eq .store addr s
      (checkHolds .store 1 s (.next (goto (nextPc .store s) (memWrite (dataIndex addr) (top s) (drop s))))) with
      ⟨hv, e⟩ | ⟨hv, e⟩
    · rcases checkHolds_eq .store 1 s
        (.next (goto (nextPc .store s) (memWrite (dataIndex addr) (top s) (drop s)))) with ⟨h, e'⟩ | ⟨h, e'⟩
      · exact .inl ⟨_, e.trans e', .store addr hv h⟩
      · exact .inr ⟨_, _, e.trans e', .underflow (.store addr) (by simp [needs]) h (by simpa using hv)⟩
    · exact .inr ⟨_, _, e, .storeAddr addr hv⟩
  | halt => exact .inl ⟨_, rfl, .halt⟩

/-- The same, of a given next state. -/
theorem exec_next_cases (i : Instr) (s t : State) (h : exec i s = .next t) :
    Completes s i t ∨ ∃ k info, t = dispatchFault i.mnemonic k info s ∧ Raises s i k info := by
  rcases exec_cases i s with ⟨u, e, hc⟩ | ⟨k, info, e, hr⟩
  · rw [e] at h; cases h; exact .inl hc
  · rw [e] at h; cases h; exact .inr ⟨k, info, rfl, hr⟩

/-- An ALU instruction is its shared shape. -/
theorem exec_alu (i : Instr) (o : AluOp) (ho : aluOp i = some o) (s : State) : exec i s = aluInstr i.mnemonic o s := by
  cases i <;> simp [aluOp] at ho <;> subst ho <;> rfl

/-- A completion is what dispatch answers. -/
theorem Completes.exec_eq {s t : State} {i : Instr} (h : Completes s i t) : exec i s = .next t := by
  cases h with
  | push v h => exact if_pos h
  | pop h => exact if_pos h
  | alu i o r ho h ha => rw [exec_alu i o ho, aluInstr, checkHolds, if_pos h, ha]
  | print h => exact if_pos h
  | jmp addr => rfl
  | jmplt val addr h => exact if_pos h
  | jmpgt val addr h => exact if_pos h
  | jmpeq val addr h => exact if_pos h
  | load addr hv h => exact (if_pos hv).trans (if_pos h)
  | store addr hv h => exact (if_pos hv).trans (if_pos h)
  | halt => rfl

/-- A fault is what dispatch answers. -/
theorem Raises.exec_eq {s : State} {i : Instr} {k : FaultKind} {x : Int} (h : Raises s i k x) :
    exec i s = .next (dispatchFault i.mnemonic k x s) := by
  cases h with
  | loadAddr addr h => exact if_neg h
  | storeAddr addr h => exact if_neg h
  | underflow i h0 h hv =>
    cases i with
    | push v => exact absurd rfl h0
    | jmp addr => exact absurd rfl h0
    | load addr => exact absurd rfl h0
    | halt => exact absurd rfl h0
    | store addr => exact (if_pos (hv addr rfl)).trans (if_neg h)
    | _ => exact if_neg h
  | pushRoom v h => exact if_neg h
  | loadRoom addr hv h => exact (if_pos hv).trans (if_neg h)
  | arith i o info ho h ha => rw [exec_alu i o ho, aluInstr, checkHolds, if_pos h, ha]

/-- A completion keeps the registers no instruction writes. -/
theorem Completes.frame {s t : State} {i : Instr} (h : Completes s i t) :
    t.cfg = s.cfg ∧ t.prog = s.prog ∧ t.faultKind = s.faultKind ∧ t.faultPc = s.faultPc ∧
      t.faultOpcode = s.faultOpcode ∧ t.faultInfo = s.faultInfo ∧ t.steps = s.steps ∧ t.hostIn = s.hostIn ∧
      (t.run = s.run ∨ i = .halt ∧ t.run = .halted) := by
  cases h <;> simp

/-- The kinds dispatch raises are dispatch kinds (60_exceptions.md R165, R166). -/
theorem Raises.kind_ne_none {s : State} {i : Instr} {k : FaultKind} {x : Int} (h : Raises s i k x) :
    k ≠ .none := by cases h <;> simp

end Sys2Proof.Machine
end

