-- ==== Sys2Proof/Laws/PerInstr.lean ====
section
/-! SUPPORT. Statements for all instructions, one lemma per constructor. `Length`: an instruction's encoding is one
opcode cell and as many operand cells as its row's arity, for every map (30_encoding.md R60, R65). -/

namespace Sys2Proof.Laws

/-- An instruction is `1 + arity` cells, and an operand is taken whole (R60, R61, R64). -/
def Length.Statement (i : Instr) : Prop :=
  ∀ m : OpcodeMap, (encode m i).length = 1 + i.mnemonic.arity ∧ (encode m i).tail = i.operands

theorem Length.push (v : Cell) : Length.Statement (.push v) := fun _ => ⟨rfl, rfl⟩
theorem Length.pop : Length.Statement .pop := fun _ => ⟨rfl, rfl⟩
theorem Length.add : Length.Statement .add := fun _ => ⟨rfl, rfl⟩
theorem Length.sub : Length.Statement .sub := fun _ => ⟨rfl, rfl⟩
theorem Length.mul : Length.Statement .mul := fun _ => ⟨rfl, rfl⟩
theorem Length.print : Length.Statement .print := fun _ => ⟨rfl, rfl⟩
theorem Length.jmp (addr : Cell) : Length.Statement (.jmp addr) := fun _ => ⟨rfl, rfl⟩
theorem Length.jmplt (val addr : Cell) : Length.Statement (.jmplt val addr) := fun _ => ⟨rfl, rfl⟩
theorem Length.jmpgt (val addr : Cell) : Length.Statement (.jmpgt val addr) := fun _ => ⟨rfl, rfl⟩
theorem Length.jmpeq (val addr : Cell) : Length.Statement (.jmpeq val addr) := fun _ => ⟨rfl, rfl⟩
theorem Length.load (addr : Cell) : Length.Statement (.load addr) := fun _ => ⟨rfl, rfl⟩
theorem Length.store (addr : Cell) : Length.Statement (.store addr) := fun _ => ⟨rfl, rfl⟩
theorem Length.halt : Length.Statement .halt := fun _ => ⟨rfl, rfl⟩

end Sys2Proof.Laws
end

