-- ==== Sys2Proof/Laws/Step.lean ====
section
/-! SUPPORT. Everything a step boundary can do, said once (40_cycle.md R80 to R88, 60_exceptions.md R170). -/

namespace Sys2Proof.Machine

/-- The state in which a decoded instruction is dispatched: its Trace emitted, the host's lines sampled. -/
def dispatchState (i : Instr) (s : State) : State := emit (traceOf i (sampleHost s)) (sampleHost s)

theorem commit_of_faulted (t : State) (h : t.run = .faulted) : commit (.next t) = .next t := by
  simp [commit, h]

theorem commit_of_not_faulted (t : State) (h : t.run ≠ .faulted) : commit (.next t) = .next (countStep t) := by
  simp [commit, h]

/-- The budget check, as a statement about the parameter (R168). -/
theorem budgetSpent_iff (s : State) : budgetSpent s = true ↔ ∃ b, s.cfg.stepBudget = some b ∧ b ≤ s.steps := by
  unfold budgetSpent
  cases s.cfg.stepBudget <;> simp

@[simp] theorem budgetSpent_sampleHost (s : State) : budgetSpent (sampleHost s) = budgetSpent s := rfl

/-- What a step of R81 can do from a Running state. -/
inductive Cycles (s : State) (abort : Bool) : State → Prop where
  | cancelled (h : abort = true) : Cycles s abort (raise .cancelled none s.pc (sampleHost s))
  | budget (ha : abort = false) (b : Nat) (hb : s.cfg.stepBudget = some b) (hs : b ≤ s.steps) :
      Cycles s abort (raise .budgetExhausted none (s.steps : Int) (sampleHost s))
  | noCell (ha : abort = false) (hb : budgetSpent s = false) (h : s.pc < 0 ∨ (s.prog.length : Int) ≤ s.pc) :
      Cycles s abort (raise .unexpectedEndOfProgram none s.pc (sampleHost s))
  | unknown (ha : abort = false) (hb : budgetSpent s = false) (op : Cell) (h0 : 0 ≤ s.pc)
      (hop : s.prog[s.pc.toNat]? = some op) (h : ∀ k, s.cfg.opcodeMap.value k ≠ op) :
      Cycles s abort (raise .unknownOpcode (some op) op (sampleHost s))
  | missing (ha : abort = false) (hb : budgetSpent s = false) (k : Mnemonic) (h0 : 0 ≤ s.pc)
      (hop : s.prog[s.pc.toNat]? = some (s.cfg.opcodeMap.value k)) (h : (s.prog.length : Int) ≤ s.pc + k.arity) :
      Cycles s abort
        (raise .unexpectedEndOfProgram (some (s.cfg.opcodeMap.value k)) (s.prog.length : Int) (sampleHost s))
  | raises (ha : abort = false) (hb : budgetSpent s = false) (i : Instr)
      (hd : decode s.cfg.opcodeMap s.prog s.pc = .ok i) (k : FaultKind) (info : Int)
      (hr : Raises (dispatchState i s) i k info) :
      Cycles s abort (dispatchFault i.mnemonic k info (dispatchState i s))
  | completes (ha : abort = false) (hb : budgetSpent s = false) (i : Instr)
      (hd : decode s.cfg.opcodeMap s.prog s.pc = .ok i) (t : State) (hc : Completes (dispatchState i s) i t) :
      Cycles s abort (countStep t)

/-- The commit of a dispatch that started Running. -/
theorem runInstr_cases (i : Instr) (s : State) (hrun : s.run = .running) :
    (∃ t, runInstr i (sampleHost s) = .next (countStep t) ∧ Completes (dispatchState i s) i t) ∨
      ∃ k info, runInstr i (sampleHost s) = .next (dispatchFault i.mnemonic k info (dispatchState i s)) ∧
        Raises (dispatchState i s) i k info := by
  have hrun' : (dispatchState i s).run = .running := hrun
  rcases exec_cases i (dispatchState i s) with ⟨t, e, hc⟩ | ⟨k, info, e, hr⟩
  · refine .inl ⟨t, ?_, hc⟩
    have ht : t.run ≠ .faulted := by
      rcases hc.frame.2.2.2.2.2.2.2.2 with h | ⟨-, h⟩ <;> simp [h, hrun']
    show commit (exec i (dispatchState i s)) = _
    rw [e, commit_of_not_faulted t ht]
  · refine .inr ⟨k, info, ?_, hr⟩
    show commit (exec i (dispatchState i s)) = _
    rw [e, commit_of_faulted _ rfl]

/-- A Running core always takes its step. -/
theorem cycle_cases (abort : Bool) (s : State) (hrun : s.run = .running) :
    ∃ t, cycle abort (sampleHost s) = .next t ∧ Cycles s abort t := by
  unfold cycle
  cases abort with
  | true => exact ⟨_, rfl, .cancelled rfl⟩
  | false =>
    rw [if_neg (by simp)]
    by_cases hb : budgetSpent (sampleHost s) = true
    · obtain ⟨b, hc, hs⟩ := (budgetSpent_iff s).mp hb
      rw [if_pos hb]
      exact ⟨_, rfl, .budget rfl b hc hs⟩
    · rw [if_neg hb]
      replace hb : budgetSpent s = false := by simpa using hb
      simp only [fetchAndRun, sampleHost_cfg, sampleHost_prog, sampleHost_pc]
      rcases decode_cases s.cfg.opcodeMap s.prog s.pc with
        ⟨hd, h⟩ | ⟨op, hd, h0, hop, h⟩ | ⟨k, hd, h0, hop, -, h⟩ | ⟨i, rest, hd, -⟩
      · rw [hd]; exact ⟨_, rfl, .noCell rfl hb h⟩
      · rw [hd]; exact ⟨_, rfl, .unknown rfl hb op h0 hop h⟩
      · rw [hd]; exact ⟨_, rfl, .missing rfl hb k h0 hop h⟩
      · rw [hd]
        rcases runInstr_cases i s hrun with ⟨t, e, hc⟩ | ⟨k, info, e, hr⟩
        · exact ⟨_, e, .completes rfl hb i hd t hc⟩
        · exact ⟨_, e, .raises rfl hb i hd k info hr⟩

/-- The faults of dispatch are of dispatch kinds (60_exceptions.md R165, R166). -/
theorem Raises.kind_isDispatch {s : State} {i : Instr} {k : FaultKind} {x : Int} (h : Raises s i k x) :
    k.isDispatch = true := by cases h <;> rfl

/-- A dispatch that started Running completes without entering Faulted. -/
theorem Completes.run_ne_faulted {s t : State} {i : Instr} (h : Completes (dispatchState i s) i t)
    (hrun : s.run = .running) : t.run ≠ .faulted := by
  have hrun' : (dispatchState i s).run = .running := hrun
  rcases h.frame.2.2.2.2.2.2.2.2 with h | ⟨-, h⟩ <;> simp [h, hrun']

/-- A step of R81 keeps the configuration and the program, and samples one host line. -/
theorem Cycles.frame {s t : State} {abort : Bool} (h : Cycles s abort t) :
    t.cfg = s.cfg ∧ t.prog = s.prog ∧ t.hostIn = s.hostIn.tail := by
  cases h with
  | completes _ _ i _ t hc => exact ⟨hc.frame.1, hc.frame.2.1, hc.frame.2.2.2.2.2.2.2.1⟩
  | _ => exact ⟨rfl, rfl, rfl⟩

/-- The four ways a boundary answers, each under its condition. -/
theorem step_refused (s : State) (h : ¬ s.cfg.Admissible s.prog.length) :
    step s = .refused .inadmissibleConfiguration := by
  rw [step, boundary, if_pos h]

theorem step_reset (s : State) (ha : s.cfg.Admissible s.prog.length) (h : (hostLines s).reset = true) :
    step s = .next (State.boot s.cfg s.prog s.hostIn.tail) := by
  rw [step, boundary, if_neg (not_not_intro ha), if_pos h]; rfl

theorem step_idle (s : State) (ha : s.cfg.Admissible s.prog.length) (h : (hostLines s).reset = false)
    (hr : s.run ≠ .running) : step s = .next (sampleHost s) := by
  rw [step, boundary, if_neg (not_not_intro ha), if_neg (by simp [h]), if_pos hr]

theorem step_stuck (s : State) (ha : s.cfg.Admissible s.prog.length) (h : (hostLines s).reset = false)
    (hr : s.run = .running) (hsp : ¬ spInRange s) : step s = .fault .stackPointerOutOfRange := by
  rw [step, boundary, if_neg (not_not_intro ha), if_neg (by simp [h]), if_neg (not_not_intro hr), if_pos hsp]

theorem step_cycle (s : State) (ha : s.cfg.Admissible s.prog.length) (h : (hostLines s).reset = false)
    (hr : s.run = .running) (hsp : spInRange s) : step s = cycle (hostLines s).abort (sampleHost s) := by
  rw [step, boundary, if_neg (not_not_intro ha), if_neg (by simp [h]), if_neg (not_not_intro hr),
    if_neg (not_not_intro hsp)]

/-- What a decoded instruction's step answers, from what its dispatch does. -/
theorem runInstr_of_completes {s t : State} {i : Instr} (hrun : s.run = .running)
    (h : Completes (dispatchState i s) i t) : runInstr i (sampleHost s) = .next (countStep t) := by
  show commit (exec i (dispatchState i s)) = _
  rw [h.exec_eq, commit_of_not_faulted t (h.run_ne_faulted hrun)]

theorem runInstr_of_raises {s : State} {i : Instr} {k : FaultKind} {x : Int} (h : Raises (dispatchState i s) i k x) :
    runInstr i (sampleHost s) = .next (dispatchFault i.mnemonic k x (dispatchState i s)) := by
  show commit (exec i (dispatchState i s)) = _
  rw [h.exec_eq, commit_of_faulted _ rfl]

/-- Everything a boundary that answers a next state can have done. -/
theorem step_cases (s t : State) (h : step s = .next t) :
    s.cfg.Admissible s.prog.length ∧
    (((hostLines s).reset = true ∧ t = State.boot s.cfg s.prog s.hostIn.tail) ∨
     ((hostLines s).reset = false ∧ s.run ≠ .running ∧ t = sampleHost s) ∨
     ((hostLines s).reset = false ∧ s.run = .running ∧ spInRange s ∧ Cycles s (hostLines s).abort t)) := by
  by_cases ha : s.cfg.Admissible s.prog.length
  · refine ⟨ha, ?_⟩
    cases hreset : (hostLines s).reset with
    | true =>
      rw [step_reset s ha hreset] at h; cases h
      exact .inl ⟨rfl, rfl⟩
    | false =>
      by_cases hr : s.run = .running
      · by_cases hsp : spInRange s
        · obtain ⟨u, e, hc⟩ := cycle_cases (hostLines s).abort s hr
          rw [step_cycle s ha hreset hr hsp, e] at h; cases h
          exact .inr (.inr ⟨rfl, hr, hsp, hc⟩)
        · rw [step_stuck s ha hreset hr hsp] at h; cases h
      · rw [step_idle s ha hreset hr] at h; cases h
        exact .inr (.inl ⟨rfl, hr, rfl⟩)
  · rw [step_refused s ha] at h; cases h

/-- The next state exists, but in a configuration outside R7 or a Running state with SP outside R22. -/
theorem step_total (s : State) (ha : s.cfg.Admissible s.prog.length)
    (hsp : (hostLines s).reset = false → s.run = .running → spInRange s) : ∃ t, step s = .next t := by
  cases hreset : (hostLines s).reset with
  | true => exact ⟨_, step_reset s ha hreset⟩
  | false =>
    by_cases hr : s.run = .running
    · obtain ⟨t, e, -⟩ := cycle_cases (hostLines s).abort s hr
      exact ⟨t, (step_cycle s ha hreset hr (hsp hreset hr)).trans e⟩
    · exact ⟨_, step_idle s ha hreset hr⟩

/-- A run goes on from the next state. -/
theorem core_run_succ (s t : State) (k : Nat) (h : step s = .next t) :
    Sys2Proof.core.run (k + 1) s = Sys2Proof.core.run k t := by
  have h' : Sys2Proof.core.step s = .next t := h
  simp only [Host.Core.run]
  rw [h']

end Sys2Proof.Machine
end

