-- ==== Sys2Proof/Tests/Slice0.lean ====
section
/-! SUPPORT. Small tests, each with the source of its expected value, and the witnesses of the statements' hypotheses. -/

namespace Sys2Proof.Tests

open Sys2Proof Sys2Proof.Machine

/-- A reset core of a configuration and program, with a live stack (bottom first) put in place. -/
def core (cfg : Config) (prog : List Cell) (stack : List Cell) : State :=
  { State.boot cfg prog [] with stack := (List.range stack.length).zip stack, sp := (stack.length : Int) - 1 }

/-- The default core of 95_test_vectors.md with a live stack. -/
def dflt (stack : List Cell) : State := core .default [] stack

/-- A small core: W = 8, two stack cells, two data cells, the `fault` policy. -/
def small : Config := { Config.default with W := 8, stackCap := 2, memCap := 2, overflowPolicy := .fault }

/-- What a next state shows: run, pc, SP and the live stack. -/
def shows : Out → Option (RunState × Int × Int × List Cell)
  | .next t => some (t.run, t.pc, t.sp, liveStack t)
  | .fault _ => none
  | .refused _ => none

/-- The fault record of a next state: kind, pc, opcode, info. -/
def record : Out → Option (FaultKind × Int × Option Cell × Int)
  | .next t => some (t.faultKind, t.faultPc, t.faultOpcode, t.faultInfo)
  | .fault _ => none
  | .refused _ => none

/-- The log of a next state. -/
def log : Out → Option (List Event)
  | .next t => some t.events
  | .fault _ => none
  | .refused _ => none

/-! ### Well-formedness: each check refuses an ill-formed term (R64) -/

theorem test_wf_push_ok : Instr.WellFormed 32 (.push (-2147483648)) := by decide
theorem test_wf_push : ¬ Instr.WellFormed 32 (.push 2147483648) := by decide
theorem test_wf_jmp : ¬ Instr.WellFormed 8 (.jmp 128) := by decide
theorem test_wf_jmplt_val : ¬ Instr.WellFormed 8 (.jmplt (-129) 0) := by decide
theorem test_wf_jmplt_addr : ¬ Instr.WellFormed 8 (.jmplt 0 128) := by decide
theorem test_wf_jmpgt_val : ¬ Instr.WellFormed 8 (.jmpgt 128 0) := by decide
theorem test_wf_jmpgt_addr : ¬ Instr.WellFormed 8 (.jmpgt 0 (-129)) := by decide
theorem test_wf_jmpeq_val : ¬ Instr.WellFormed 8 (.jmpeq 128 0) := by decide
theorem test_wf_jmpeq_addr : ¬ Instr.WellFormed 8 (.jmpeq 0 128) := by decide
theorem test_wf_load : ¬ Instr.WellFormed 8 (.load 128) := by decide
theorem test_wf_store : ¬ Instr.WellFormed 8 (.store (-129)) := by decide

/-! ### Decoding: each row's cells, written out from R61 and R62 -/

theorem test_decode_push : decodeCells .default [0, -5, 9] = .ok (.push (-5), [9]) := by decide
theorem test_decode_pop : decodeCells .default [1, 9] = .ok (.pop, [9]) := by decide
theorem test_decode_add : decodeCells .default [2, 9] = .ok (.add, [9]) := by decide
theorem test_decode_sub : decodeCells .default [3, 9] = .ok (.sub, [9]) := by decide
theorem test_decode_mul : decodeCells .default [4, 9] = .ok (.mul, [9]) := by decide
theorem test_decode_print : decodeCells .default [5, 9] = .ok (.print, [9]) := by decide
theorem test_decode_jmp : decodeCells .default [6, 100, 9] = .ok (.jmp 100, [9]) := by decide
theorem test_decode_jmplt : decodeCells .default [7, 10, 20, 9] = .ok (.jmplt 10 20, [9]) := by decide
theorem test_decode_jmpgt : decodeCells .default [8, 0, 2, 9] = .ok (.jmpgt 0 2, [9]) := by decide
theorem test_decode_jmpeq : decodeCells .default [9, 4, 0, 9] = .ok (.jmpeq 4 0, [9]) := by decide
theorem test_decode_load : decodeCells .default [10, 3, 9] = .ok (.load 3, [9]) := by decide
theorem test_decode_store : decodeCells .default [11, 3, 9] = .ok (.store 3, [9]) := by decide
theorem test_decode_halt : decodeCells .default [12, 9] = .ok (.halt, [9]) := by decide
/-- V-D2 and V-D3. -/
theorem test_decode_illegal : decode .default [13] 0 = .error (.unknownOpcode 13) ∧
    decode .default [-1] 0 = .error (.unknownOpcode (-1)) := by decide
/-- A map of other values decodes by those values (R63): here PUSH = 12 and HALT = 0. -/
theorem test_decode_other_map :
    decodeCells { OpcodeMap.default with push := 12, halt := 0 } [12, 7] = .ok (.push 7, []) := by decide
/-- V-D6: one of two operands. -/
theorem test_decode_missing : decode .default [7, 5] 0 = .error (.missingOperand 7) := by decide
/-- The table's numbering: the second cell of a row is bits 63..32, read signed. -/
theorem test_table_word : decodeTableWord 64 (0xFFFFFFFE * 2 ^ 32 + 6) = some (.jmp (-2)) := by decide
theorem test_table_word_short : decodeTableWord 32 7 = some (.jmplt 0 0) := by decide
/-- R70's example. -/
theorem test_encode_program :
    encodeProgram .default [.push 2, .push 3, .add, .print, .halt] = [0, 2, 0, 3, 2, 5, 12] := by decide
/-- D14: -2 in 32 bits is FE FF FF FF, low byte first. -/
theorem test_little_endian : cellToBytes 32 0 (-2) = [0xFE, 0xFF, 0xFF, 0xFF] := by decide
theorem test_little_endian_back : cellOfBytes 12 (cellToBytes 12 5 (-2)) = -2 := by decide
/-- The sign-extended image of -2 and 1 in 12 bits, computed by hand: FFFE and 0001, low byte first (log 20, log 25). -/
theorem test_image_sign_extended :
    programToBytes 12 (fun i => if i = 0 then 15 else 0) [-2, 1] = [0xFE, 0xFF, 0x01, 0x00] := by decide

/-! ### Instructions: the vectors of 95_test_vectors.md -/

/-- V-S1. -/
theorem test_push : shows (exec (.push 7) (dflt [])) = some (.running, 2, 0, [7]) := by decide
/-- V-S3. -/
theorem test_push_full : record (exec (.push 3) { core { Config.default with stackCap := 2 } [] [1, 2] with pc := 4 }) =
    some (.stackOverflow, 4, some 0, 2) := by decide
/-- V-S7. -/
theorem test_pop : shows (exec .pop (dflt [4, 9])) = some (.running, 1, 0, [4]) := by decide
/-- V-S6. -/
theorem test_pop_empty : record (exec .pop (dflt [])) = some (.stackUnderflow, 0, some 1, -1) := by decide
/-- V-A5. -/
theorem test_add_wraps : shows (exec .add (dflt [2147483647, 1])) = some (.running, 1, 0, [-2147483648]) := by decide
/-- V-A11. -/
theorem test_add_one_value : record (exec .add { dflt [5] with pc := 2 }) = some (.stackUnderflow, 2, some 2, 0) := by
  decide
/-- V-A4: the deeper minus the top. -/
theorem test_sub_order : shows (exec .sub (dflt [15, 5])) = some (.running, 1, 0, [10]) := by decide
/-- V-A13. -/
theorem test_sub_top_two : shows (exec .sub (dflt [1, 2, 3])) = some (.running, 1, 1, [1, -1]) := by decide
/-- V-A9. -/
theorem test_mul_wraps : shows (exec .mul (dflt [46341, 46341])) = some (.running, 1, 0, [-2147479015]) := by decide
/-- P4, W = 8, `fault`: 120 * 3 = 360 wraps to 104. -/
theorem test_mul_fault : record (exec .mul { core small [] [120, 3] with pc := 12 }) =
    some (.arithmeticOverflow, 12, some 4, 104) := by decide
/-- V-O2. -/
theorem test_print : shows (exec .print (dflt [3, -8])) = some (.running, 1, 0, [3]) ∧
    log (exec .print (dflt [3, -8])) = some [.print (-8)] := by decide
/-- V-O3. -/
theorem test_print_empty : record (exec .print (dflt [])) = some (.stackUnderflow, 0, some 5, -1) := by decide
/-- V-B11: any target, no fault at the branch. -/
theorem test_jmp : shows (exec (.jmp (-1)) (dflt [])) = some (.running, -1, -1, []) := by decide
/-- V-B4: signed, and `t < val`. -/
theorem test_jmplt_signed : shows (exec (.jmplt 0 20) (dflt [-1])) = some (.running, 20, 0, [-1]) := by decide
/-- V-B3: equal is not taken. -/
theorem test_jmplt_equal : shows (exec (.jmplt 10 20) { dflt [10] with pc := 5 }) = some (.running, 8, 0, [10]) := by
  decide
/-- V-B6. -/
theorem test_jmpgt : shows (exec (.jmpgt (-2147483648) 0) { dflt [2147483647] with pc := 5 }) =
    some (.running, 0, 0, [2147483647]) := by decide
/-- V-B5. -/
theorem test_jmpgt_not_taken : shows (exec (.jmpgt 10 20) { dflt [9] with pc := 5 }) = some (.running, 8, 0, [9]) := by
  decide
/-- V-B7. -/
theorem test_jmpeq : shows (exec (.jmpeq 9 0) { dflt [4, 9] with pc := 5 }) = some (.running, 0, 1, [4, 9]) := by decide
/-- V-B8: only the top is compared. -/
theorem test_jmpeq_top : shows (exec (.jmpeq 4 0) { dflt [4, 9] with pc := 5 }) = some (.running, 8, 1, [4, 9]) := by
  decide
/-- V-M2. -/
theorem test_load_unwritten : shows (exec (.load 9) (dflt [])) = some (.running, 2, 0, [0]) := by decide
/-- V-M5: the address before the stack. -/
theorem test_load_order : record (exec (.load 10) { core { Config.default with stackCap := 1 } [] [1] with pc := 2 }) =
    some (.invalidMemoryAddress, 2, some 10, 10) := by decide
/-- V-M8: overwrites. -/
theorem test_store : (match exec (.store 9) { dflt [1, 2] with mem := [(9, 5)] } with
    | .next t => some (t.mem, liveStack t)
    | .fault _ => none
    | .refused _ => none) = some ([(9, 2)], [1]) := by decide
/-- V-M9: the address before the stack. -/
theorem test_store_order : record (exec (.store 10) (dflt [])) = some (.invalidMemoryAddress, 0, some 11, 10) := by
  decide
/-- V-H1, through the step: Trace, then Dump. -/
theorem test_halt : log (step (core .default [12] [])) =
    some [.trace 0 12 [] [], .dump [0, 0, 0, 0, 0, 0, 0, 0, 0, 0]] ∧
    shows (step (core .default [12] [])) = some (.halted, 1, -1, []) := by decide

/-! ### The step -/

/-- V-D1, V-D4: no trace, and the first missing cell. -/
theorem test_fetch_faults : record (step (core .default [] [])) = some (.unexpectedEndOfProgram, 0, none, 0) ∧
    record (step (core .default [0] [])) = some (.unexpectedEndOfProgram, 0, some 0, 1) ∧
    log (step (core .default [0] [])) = some [] := by decide
/-- V-D7: a dispatch fault keeps its Trace. -/
theorem test_dispatch_fault_trace : record (step (core .default [7, 5, 0] [])) = some (.stackUnderflow, 0, some 7, -1) ∧
    log (step (core .default [7, 5, 0] [])) = some [.trace 0 7 [5, 0] []] := by decide
/-- V-C4: abort before the budget. -/
theorem test_abort_first : record (step { core { Config.default with stepBudget := some 0 } [12] [] with
    hostIn := [{ reset := false, abort := true }] }) = some (.cancelled, 0, none, 0) := by decide
/-- V-C2. -/
theorem test_budget : record (step (core { Config.default with stepBudget := some 0 } [12] [])) =
    some (.budgetExhausted, 0, none, 0) := by decide
/-- R193: reset leaves Halted, and clears the log. -/
theorem test_reset_line : step { core .default [12] [] with
    run := .halted, pc := 1, events := [.print 3], hostIn := [{ reset := true, abort := true }] } =
    .next (State.boot .default [12] []) := by rfl
/-- U15: a duplicate opcode value is refused. -/
theorem test_inadmissible : step (core { Config.default with
    opcodeMap := { OpcodeMap.default with halt := 0 } } [] []) = .refused .inadmissibleConfiguration := by rfl
/-- A table word placed where the reset state fetches runs as the first instruction. -/
theorem test_placed_word : shows (step (State.reset.withFetchWord 64 (7 * 2 ^ 32))) = some (.running, 2, 0, [7]) := by
  decide
theorem test_status_codes : (readStatus 0 { core .default [] [] with run := .faulted, faultKind := .cancelled }).faultKind = 8 ∧
    (readStatus 0 { core .default [] [] with run := .halted }).run = 1 := by decide

/-! ### Witnesses: states and operands that meet the statements' hypotheses -/

/-- A Running default core about to PUSH, with one value live. -/
def live : State := core .default [0, 7, 12] [5]

/-- The same core, Running in the small configuration, its stack full. -/
def full : State := core small [0, 7, 12] [5, 6]

theorem live_ready : live.Ready := ⟨by decide, by decide, by decide, by decide⟩

/-- Ready, no abort and no budget is free of host stops. -/
theorem free_of_ready (s : State) (h : s.Ready) (ha : (hostLines s).abort = false) (hb : s.cfg.stepBudget = none) :
    s.Free := ⟨h, ha, fun b hs => by rw [hb] at hs; cases hs⟩

theorem live_free : live.Free := free_of_ready live live_ready (by decide) rfl

theorem live_inv : live.Inv where
  admissible := by decide
  progFits := by decide
  pcFits := by decide
  spInRange := by decide
  stackRising := by decide
  stackFits := by decide
  liveWritten := fun i hi => by
    have hi : (i : Int) ≤ 0 := hi
    obtain rfl : i = 0 := by omega
    decide
  memWf := by decide
  memFits := by decide
  recordKind := by decide
  recordClear := by decide
  budget := fun b hb => by cases hb

theorem live_logInv : live.LogInv where
  memIsLastStore := fun _ => rfl
  traceCount := by decide
  dumpCount := by decide
  dumpLast := by decide

/-- The reset line high in a halted core (ResetRestoresEveryState, ResetForgetsThePast). -/
def resetting : State :=
  { live with run := .halted, steps := 9, hostIn := [{ reset := true, abort := false }] }

theorem witness_ResetRestoresEveryState :
    resetting.cfg.Admissible resetting.prog.length ∧ (hostLines resetting).reset = true := by decide
theorem witness_ResetForgetsThePast : resetting.cfg = { resetting with steps := 0 }.cfg ∧
    resetting.prog = { resetting with steps := 0 }.prog ∧ resetting.hostIn = { resetting with steps := 0 }.hostIn ∧
    (hostLines resetting).reset = true := by decide
/-- R7's bound itself: W = 8 and 124 cells. -/
theorem witness_BootStateIsLegal : small.Admissible (List.replicate 124 (0 : Cell)).length ∧
    ∀ c ∈ List.replicate 124 (0 : Cell), fitsW small.W c :=
  ⟨by rw [List.length_replicate]; decide, fun c hc => by rw [List.eq_of_mem_replicate hc]; decide⟩
theorem witness_StepKeepsLegalStates : live.Inv ∧ (shows (step live)).isSome := ⟨live_inv, by decide⟩
theorem witness_StepKeepsLogAccount : live.LogInv ∧ (shows (step live)).isSome := ⟨live_logInv, by decide⟩
theorem witness_BudgetEndsEveryRun : { small with stepBudget := some 3 }.Admissible [6, 0].length ∧
    { small with stepBudget := some 3 }.stepBudget = some 3 ∧
    ∀ h ∈ [({ reset := false, abort := false } : HostInput)], h.reset = false := by decide

theorem witness_DecodeEncodeRoundTrip : OpcodeMap.default.values.Nodup ∧
    { OpcodeMap.default with push := 12, halt := 0 }.values.Nodup := by decide
theorem witness_DecodedCellsAreTheEncoding : decode .default [12, 7, 1, 2] 1 = .ok (.jmplt 1 2) := by decide
theorem witness_DecodedInstructionsAreWellFormed :
    (∀ c ∈ [(10 : Cell), -128], fitsW 8 c) ∧ decode .default [10, -128] 0 = .ok (.load (-128)) := by decide
/-- The four outcomes, each at its bound. -/
theorem witness_DecoderIsTheRuleOfThePrograms :
    (([0, 7] : List Cell).length : Int) ≤ 2 ∧
    ([13] : List Cell)[0]? = some 13 ∧ (∀ k ∈ Mnemonic.all, OpcodeMap.default.value k ≠ 13) ∧
    ([7, 5] : List Cell)[0]? = some (OpcodeMap.default.value .jmplt) ∧ (2 : Int) ≤ 0 + (Mnemonic.jmplt.arity : Int) ∧
    ([7, 5, 0] : List Cell)[0]? = some (OpcodeMap.default.value .jmplt) ∧ (0 : Int) + Mnemonic.jmplt.arity < 3 := by
  decide
theorem witness_SerialisedCellsReadBack : 1 ≤ 12 ∧ fitsW 12 (-2048) ∧ 1 < bytesPerCell 12 := by decide

theorem witness_StepRunsTheDecodedInstruction : live.Free ∧
    decode live.cfg.opcodeMap live.prog live.pc = .ok (.push 7) ∧ (shows (exec (.push 7) live)).isSome :=
  ⟨live_free, by decide, by decide⟩
theorem witness_checks_abort : { live with hostIn := [{ reset := false, abort := true }] }.Ready ∧
    (hostLines { live with hostIn := [{ reset := false, abort := true }] }).abort = true :=
  ⟨⟨by decide, by decide, by decide, by decide⟩, by decide⟩
theorem witness_checks_budget : (core { Config.default with stepBudget := some 0 } [12] []).Ready ∧
    (core { Config.default with stepBudget := some 0 } [12] []).cfg.stepBudget = some 0 :=
  ⟨⟨by decide, by decide, by decide, by decide⟩, by decide⟩
theorem witness_checks_pc : { live with pc := 3 }.Free ∧ (live.prog.length : Int) ≤ 3 :=
  ⟨free_of_ready _ ⟨by decide, by decide, by decide, by decide⟩ (by decide) rfl, by decide⟩
theorem witness_checks_unknown : (core .default [13] []).Free ∧ (core .default [13] []).prog[0]? = some 13 :=
  ⟨free_of_ready _ ⟨by decide, by decide, by decide, by decide⟩ (by decide) rfl, by decide⟩
theorem witness_checks_missing : (core .default [7, 5] []).Free ∧
    (core .default [7, 5] []).prog[0]? = some ((core .default [7, 5] []).cfg.opcodeMap.value .jmplt) :=
  ⟨free_of_ready _ ⟨by decide, by decide, by decide, by decide⟩ (by decide) rfl, by decide⟩
theorem witness_TerminalStatesKeepEverything : { live with run := .halted }.cfg.Admissible live.prog.length ∧
    { live with run := .halted }.run ≠ .running ∧ (hostLines { live with run := .halted }).reset = false := by decide
/-- Running cores whose step faults in dispatch, and before it (FaultEntryIsPrecise, EveryFaultHasItsCause). -/
theorem witness_fault : full.run = .running ∧ (shows (step full)).map (·.1) = some .faulted ∧
    (record (step full)).map (·.1.isDispatch) = some true ∧ (core .default [13] []).run = .running ∧
    (shows (step (core .default [13] []))).map (·.1) = some .faulted ∧
    (record (step (core .default [13] []))).map (·.1.isDispatch) = some false := by decide
theorem witness_NoArithmeticOverflowUnderWrap : live.cfg.overflowPolicy = .wrap ∧ live.run = .running ∧
    (shows (step live)).isSome := by decide
theorem witness_OnlyHaltHalts : (core .default [12] []).run = .running ∧
    (shows (step (core .default [12] []))).map (·.1) = some .halted := by decide
theorem witness_NothingChangesTheProgram : (shows (step live)).isSome := by decide
/-- A STORE to the last cell changes memory. -/
theorem witness_OnlyStoreWritesMemory : (hostLines (core small [11, 1] [5])).reset = false ∧
    (core small [11, 1] [5]).mem.read 1 = 0 ∧
    (match step (core small [11, 1] [5]) with
     | .next t => some (t.mem.read 1)
     | .fault _ => none
     | .refused _ => none) = some 5 := by decide
theorem witness_LogOnlyGrows : (hostLines live).reset = false ∧ (shows (step live)).isSome := by decide
/-- Two cores that differ in a dead cell alone. -/
theorem witness_DeadStackCellsAreUnobservable :
    live.SameButDead { live with stack := [(0, 5), (1, 99)] } ∧ (shows (step live)).isSome :=
  ⟨⟨by decide, by decide⟩, by decide⟩

/-- One value short of full, and full (PushEffect, LoadEffect, PushThenPopRestoresTheStack). -/
theorem witness_push : -1 ≤ (core small [] [5]).sp ∧ (core small [] [5]).sp + 1 < (core small [] [5]).cfg.stackCap ∧
    (full.cfg.stackCap : Int) ≤ full.sp + 1 ∧ spInRange (core small [] [5]) := by decide
/-- One value, and none (PopEffect, PrintEffect, ConditionalJumpEffect). -/
theorem witness_one_value : liveStack (dflt [5]) = [] ++ [5] ∧ (dflt []).sp < 0 := by decide
/-- Results that fit and that do not, under each policy, and one value short (ArithmeticEffect). -/
theorem witness_ArithmeticEffect : liveStack (core small [] [127, 0]) = [] ++ [127, 0] ∧ fitsW small.W (127 + 0) ∧
    ¬ fitsW small.W (127 + 1) ∧ small.overflowPolicy = .fault ∧ ¬ fitsW 32 (2147483647 + 1) ∧
    Config.default.overflowPolicy = .wrap ∧ liveStack (dflt [2147483647, 1]) = [] ++ [2147483647, 1] ∧
    (dflt [5]).sp < 1 := by decide
/-- The last address, the first beyond it, -1, and a full stack (LoadEffect). -/
theorem witness_LoadEffect : (0 : Int) ≤ 1 ∧ (1 : Int) < small.memCap ∧ (small.memCap : Int) ≤ 2 ∧ (-1 : Int) < 0 ∧
    (full.cfg.stackCap : Int) ≤ full.sp + 1 := by decide
theorem witness_StoreEffect : (1 : Int) < (core small [] [5]).cfg.memCap ∧ liveStack (core small [] [5]) = [] ++ [5] ∧
    (core small [] []).sp < 0 ∧ spInRange (core small [] [5]) := by decide
theorem witness_UnderflowExactlyWhenTooFewValues : (dflt [5]).run = .running ∧
    Instr.add.mnemonic ∈ [Mnemonic.add, .sub, .mul] ∧ (dflt [5]).sp + 1 < 2 ∧
    Instr.pop.mnemonic ∈ [Mnemonic.pop, .print, .jmplt, .jmpgt, .jmpeq, .store] ∧
    Instr.halt.mnemonic ∈ [Mnemonic.push, .jmp, .load, .halt] ∧ -1 ≤ (dflt []).sp := by decide
theorem witness_OverflowExactlyWhenFull : full.run = .running ∧ (full.cfg.stackCap : Int) ≤ full.sp + 1 := by decide
theorem witness_StackNeverWrapsAround : spInRange full ∧ (shows (exec .pop full)).isSome := by decide
/-- A completing instruction of each row of R23's table (StackEffectTable, PcGoesPastTheInstruction). -/
theorem witness_completes : spInRange live ∧ live.run = .running ∧
    (shows (exec (.push 1) live)).map (·.1) = some .running ∧ (shows (exec .pop live)).map (·.1) = some .running ∧
    (shows (exec .add full)).map (·.1) = some .running ∧
    (shows (exec (.jmplt 9 0) live)).map (·.1) = some .running ∧ (shows (exec .halt live)).map (·.1) = some .halted := by
  decide
/-- V-B10: the target, and the core it leaves, are free of host stops. -/
theorem witness_BadTargetFaultsAtTheNextFetch : (core .default [6, 100] []).Free ∧
    decode OpcodeMap.default [6, 100] 0 = .ok (.jmp 100) ∧ ((2 : Nat) : Int) ≤ 100 ∧
    { core .default [6, 100] [] with pc := 100, steps := 1, events := [.trace 0 6 [100] []] }.Free :=
  ⟨free_of_ready _ ⟨by decide, by decide, by decide, by decide⟩ (by decide) rfl, by decide, by decide,
    free_of_ready _ ⟨by decide, by decide, by decide, by decide⟩ (by decide) rfl⟩
/-- A taken JMPLT, JMPGT and JMPEQ to the first cell past the program and to -1 (BadTargetFaultsAtTheNextFetch). -/
theorem witness_bad_conditional_targets : (core .default [7, 9, 3] [5]).Free ∧ (core .default [8, 1, -1] [5]).Free ∧
    (core .default [9, 5, 3] [5]).Free ∧
    decode OpcodeMap.default [7, 9, 3] 0 = .ok (.jmplt 9 3) ∧ decode OpcodeMap.default [8, 1, -1] 0 = .ok (.jmpgt 1 (-1)) ∧
    decode OpcodeMap.default [9, 5, 3] 0 = .ok (.jmpeq 5 3) ∧
    liveStack (core .default [7, 9, 3] [5]) = [] ++ [5] ∧ liveStack (core .default [8, 1, -1] [5]) = [] ++ [5] ∧
    liveStack (core .default [9, 5, 3] [5]) = [] ++ [5] :=
  ⟨free_of_ready _ ⟨by decide, by decide, by decide, by decide⟩ (by decide) rfl,
    free_of_ready _ ⟨by decide, by decide, by decide, by decide⟩ (by decide) rfl,
    free_of_ready _ ⟨by decide, by decide, by decide, by decide⟩ (by decide) rfl, by decide, by decide, by decide,
    by decide, by decide, by decide⟩
theorem witness_OverflowSigns : 1 ≤ 8 ∧ fitsW 8 127 ∧ fitsW 8 1 ∧ ¬ fitsW 8 (AluOp.add.exact 127 1) := by decide
theorem halted_inv : { live with run := .halted }.Inv := { live_inv with recordKind := by decide }
theorem witness_StatusViewShowsTheRegisters : { live with run := .halted }.Inv ∧
    { live with run := .halted }.run ≠ .running ∧ fitsW 32 live.faultInfo ∧ live.faultOpcode = none ∧
    fitsW 32 live.faultPc ∧ fitsW 32 live.sp ∧ live.steps < 2 ^ 32 :=
  ⟨halted_inv, by decide, by decide, by decide, by decide, by decide, by decide⟩
theorem witness_HostMovesOnlyWhenStopped : live.run = .running ∧ { live with run := .halted }.run ≠ .running ∧
    0 < live.cfg.memCap ∧ live.cfg.Admissible [12].length ∧ (∀ c ∈ [12], fitsW live.cfg.W c) ∧ small.Admissible [12].length ∧
    (∀ c ∈ [12], fitsW small.W c) := by decide

end Sys2Proof.Tests
end

section
/-! The encoding obligations (30_encoding.md R63, R68): the lookup as an equivalence, and the decoder's answer from what
the program holds at pc. -/

namespace Sys2Proof

/-! ### The opcode lookup -/

/-- R63: with distinct values the lookup is equality with the whole cell. -/
theorem lookup_eq_some_iff (m : OpcodeMap) (h : m.values.Nodup) (op : Cell) (k : Mnemonic) :
    m.lookup op = some k ↔ m.value k = op :=
  ⟨value_of_lookup m op k, by rintro rfl; exact lookup_value m h k⟩

/-- A cell is legal exactly where some row has it as its value; no distinctness is needed. -/
theorem lookup_isSome_iff (m : OpcodeMap) (op : Cell) : (m.lookup op).isSome ↔ ∃ k, m.value k = op := by
  rw [← Option.ne_none_iff_isSome, Ne, lookup_none_iff]
  push Not
  rfl

theorem default_value_bounds (k : Mnemonic) : 0 ≤ OpcodeMap.default.value k ∧ OpcodeMap.default.value k ≤ 12 := by
  cases k <;> decide

theorem default_lookup_isSome_of_bounds (op : Cell) (h0 : 0 ≤ op) (h12 : op ≤ 12) :
    (OpcodeMap.default.lookup op).isSome := by
  interval_cases op <;> decide

/-- Settles O16: the lookup is whole-cell equality, and the default map's values are exactly 0 to 12. -/
theorem opcodesAreWholeCells : Obligations.OpcodesAreWholeCells := by
  refine ⟨fun m op k h => lookup_eq_some_iff m h op k, fun op => ⟨fun hs => ?_, fun ⟨h0, h12⟩ => ?_⟩⟩
  · obtain ⟨k, rfl⟩ := (lookup_isSome_iff _ op).mp hs
    exact default_value_bounds k
  · exact default_lookup_isSome_of_bounds op h0 h12

/-! ### The decoder's answer at a program cell -/

/-- Outside the program there is no opcode cell. -/
theorem decode_of_outside (m : OpcodeMap) (prog : List Cell) (pc : Int) (h : pc < 0 ∨ (prog.length : Int) ≤ pc) :
    decode m prog pc = .error .noCell := if_pos h

/-- Inside the program the decoder is the cell decoder on the opcode cell and the cells after it. -/
theorem decode_of_getElem? (m : OpcodeMap) (prog : List Cell) (pc : Int) (op : Cell) (h0 : 0 ≤ pc)
    (hop : prog[pc.toNat]? = some op) :
    decode m prog pc = (decodeCells m (op :: prog.drop (pc.toNat + 1))).map Prod.fst := by
  obtain ⟨hlt, -⟩ := List.getElem?_eq_some_iff.mp hop
  rw [decode, if_neg (by omega), drop_eq_cons_of_getElem? prog _ op hop]
  cases decodeCells m (op :: prog.drop (pc.toNat + 1)) <;> rfl

theorem decodeCells_of_no_row (m : OpcodeMap) (op : Cell) (cells : List Cell) (h : ∀ k, m.value k ≠ op) :
    decodeCells m (op :: cells) = .error (.unknownOpcode op) := by
  simp [decodeCells, (lookup_none_iff m op).mpr h]

/-- A row's value with fewer cells after it than the row has operands. -/
theorem decodeCells_of_short (m : OpcodeMap) (h : m.values.Nodup) (k : Mnemonic) (cells : List Cell)
    (hlen : cells.length < k.arity) : decodeCells m (m.value k :: cells) = .error (.missingOperand (m.value k)) := by
  simp [decodeCells, lookup_value m h k, (takeOperands_none_iff k cells).mpr hlen]

/-- Where the operand cells exist, taking them gives an instruction of the row with exactly those cells. -/
theorem takeOperands_of_enough (k : Mnemonic) (cells : List Cell) (hlen : k.arity ≤ cells.length) :
    ∃ i rest, takeOperands k cells = some (i, rest) ∧ i.mnemonic = k ∧ i.operands = cells.take k.arity := by
  have hne : takeOperands k cells ≠ none := mt (takeOperands_none_iff k cells).mp (by omega)
  obtain ⟨⟨i, rest⟩, ht⟩ := Option.ne_none_iff_exists'.mp hne
  obtain ⟨rfl, rfl⟩ := takeOperands_some k cells rest i ht
  exact ⟨i, rest, ht, rfl, (List.take_left' (operands_length i)).symm⟩

/-- A row's value with its operand cells after it. -/
theorem decodeCells_of_enough (m : OpcodeMap) (h : m.values.Nodup) (k : Mnemonic) (cells : List Cell)
    (hlen : k.arity ≤ cells.length) :
    ∃ i rest, decodeCells m (m.value k :: cells) = .ok (i, rest) ∧ i.mnemonic = k ∧
      i.operands = cells.take k.arity := by
  obtain ⟨i, rest, ht, hk, hops⟩ := takeOperands_of_enough k cells hlen
  exact ⟨i, rest, by simp [decodeCells, lookup_value m h k, ht], hk, hops⟩

theorem encode_length (m : OpcodeMap) (i : Instr) : (encode m i).length = 1 + i.mnemonic.arity := by
  rw [encode, List.length_cons, operands_length, Nat.add_comm]

/-- Settles O15: outside the program by the bound test, inside it by the cell decoder's answer for the opcode cell at
pc, whose operand cells are the `prog.length - (pc + 1)` cells after it. -/
theorem decoderIsTheRuleOfThePrograms : Obligations.DecoderIsTheRuleOfThePrograms := by
  intro m prog pc hnodup
  have hlen : (prog.drop (pc.toNat + 1)).length = prog.length - (pc.toNat + 1) := List.length_drop
  refine ⟨decode_of_outside m prog pc, fun op h0 hop hno => ?_, fun k h0 hop hend => ?_, fun k h0 hop hend => ?_⟩
  · rw [decode_of_getElem? m prog pc op h0 hop, decodeCells_of_no_row m op _ hno]
    rfl
  · obtain ⟨hlt, -⟩ := List.getElem?_eq_some_iff.mp hop
    rw [decode_of_getElem? m prog pc _ h0 hop, decodeCells_of_short m hnodup k _ (by omega)]
    rfl
  · obtain ⟨i, rest, hd, hk, hops⟩ := decodeCells_of_enough m hnodup k (prog.drop (pc.toNat + 1)) (by omega)
    refine ⟨i, ?_, hk, hops, by rw [encode_length, hk]⟩
    rw [decode_of_getElem? m prog pc _ h0 hop, hd]
    rfl

end Sys2Proof
end

section
/-! The obligation on the checks before dispatch (40_cycle.md R82, R83, R84; 60_exceptions.md R168, R169, R170): what a
step answers in a Ready state, and in a Free one, whose cycle is the fetch alone. -/

namespace Sys2Proof.Machine

theorem cycle_of_abort (s : State) : cycle true s = .next (raise .cancelled none s.pc s) := if_pos rfl

theorem cycle_of_budgetSpent (s : State) (h : budgetSpent s = true) :
    cycle false s = .next (raise .budgetExhausted none (s.steps : Int) s) := by
  rw [cycle, if_neg Bool.false_ne_true, if_pos h]

theorem cycle_of_no_host_stop (s : State) (h : budgetSpent s = false) : cycle false s = fetchAndRun s := by
  rw [cycle, if_neg Bool.false_ne_true, if_neg (by simp [h])]

theorem fetchAndRun_of_error (s : State) (e : Reject) (h : decode s.cfg.opcodeMap s.prog s.pc = .error e) :
    fetchAndRun s = .next (fetchFault s e) := by
  rw [fetchAndRun, h]

/-- In a Ready state the boundary is a step of R81. -/
theorem State.Ready.step_eq {s : State} (h : s.Ready) :
    step s = cycle (hostLines s).abort (sampleHost s) := by
  obtain ⟨hadm, hreset, hrun, hsp⟩ := h
  exact step_cycle s hadm hreset hrun hsp

theorem State.Ready.values_nodup {s : State} (h : s.Ready) : s.cfg.opcodeMap.values.Nodup := by
  obtain ⟨⟨-, -, -, -, -, hnodup⟩, -⟩ := h
  exact hnodup

theorem State.Free.budgetSpent_eq_false {s : State} (h : s.Free) : budgetSpent s = false := by
  obtain ⟨-, -, hbudget⟩ := h
  refine Bool.eq_false_iff.mpr fun hspent => ?_
  obtain ⟨b, hb, hle⟩ := (budgetSpent_iff s).mp hspent
  exact absurd (hbudget b hb) (Nat.not_lt.mpr hle)

/-- In a Free state the boundary is the fetch and what follows it. -/
theorem State.Free.step_eq {s : State} (h : s.Free) : step s = fetchAndRun (sampleHost s) := by
  have hspent := h.budgetSpent_eq_false
  obtain ⟨hready, habort, -⟩ := h
  rw [hready.step_eq, habort, cycle_of_no_host_stop (sampleHost s) hspent]

/-- A rejected decode in a Free state is the fetch's fault. -/
theorem State.Free.step_of_decode_error {s : State} (h : s.Free) (e : Reject)
    (hd : decode s.cfg.opcodeMap s.prog s.pc = .error e) : step s = .next (fetchFault (sampleHost s) e) :=
  h.step_eq.trans (fetchAndRun_of_error (sampleHost s) e hd)

/-- Settles O20: the host stops by the order of `cycle`, and each fetch fault from the decoder's rejection at pc (O15). -/
theorem stepStartChecksInOrder : Obligations.StepStartChecksInOrder := by
  intro s hready
  obtain ⟨hnone, hunknown, hmissing, -⟩ :=
    decoderIsTheRuleOfThePrograms s.cfg.opcodeMap s.prog s.pc hready.values_nodup
  refine ⟨fun habort => ?_, fun b habort hb hle => ?_, fun hfree hout => ?_, fun op hfree h0 hop hno => ?_,
    fun k hfree h0 hop hend => ?_⟩
  · rw [hready.step_eq, habort, cycle_of_abort]
    rfl
  · rw [hready.step_eq, habort, cycle_of_budgetSpent (sampleHost s) ((budgetSpent_iff s).mpr ⟨b, hb, hle⟩)]
    rfl
  · exact hfree.step_of_decode_error .noCell (hnone hout)
  · exact hfree.step_of_decode_error (.unknownOpcode op) (hunknown op h0 hop hno)
  · exact hfree.step_of_decode_error (.missingOperand _) (hmissing k h0 hop hend)

end Sys2Proof.Machine
end

section
/-! The stack obligations (41_stack.md R100 to R104): a dispatch from a Running state enters Faulted exactly by one of
the cases of `Raises`, so each stack fault's condition is read off those cases. -/

namespace Sys2Proof.Machine

/-! ### Faults of a dispatch that starts Running -/

theorem Completes.run_ne_faulted_of_running {s t : State} {i : Instr} (h : Completes s i t) (hrun : s.run = .running) :
    t.run ≠ .faulted := by
  obtain ⟨-, -, -, -, -, -, -, -, hkeep | ⟨-, hhalt⟩⟩ := h.frame
  · simp [hkeep, hrun]
  · simp [hhalt]

/-- A dispatch that ends Faulted is fault entry, by a row of `Raises` of the recorded kind. -/
theorem raises_of_exec_faulted {s t : State} {i : Instr} (hrun : s.run = .running) (he : exec i s = .next t)
    (hf : t.run = .faulted) : ∃ info, Raises s i t.faultKind info ∧ t = dispatchFault i.mnemonic t.faultKind info s := by
  rcases exec_next_cases i s t he with hc | ⟨k, info, rfl, hr⟩
  · exact absurd hf (hc.run_ne_faulted_of_running hrun)
  · exact ⟨info, hr, rfl⟩

/-- A fault kind with one condition and one info: from a Running state dispatch raises it exactly under the condition,
and then the next state is fault entry with that info. -/
theorem exec_fault_iff_of_raises_iff {s : State} {i : Instr} {kind : FaultKind} {cond : Prop} {x : Int}
    (hrun : s.run = .running) (h : ∀ info, Raises s i kind info ↔ cond ∧ info = x) :
    ((∃ t, exec i s = .next t ∧ t.run = .faulted ∧ t.faultKind = kind) ↔ cond) ∧
      (∀ t, exec i s = .next t → t.run = .faulted → t.faultKind = kind →
        t = raise kind (some (s.cfg.opcodeMap.value i.mnemonic)) x s) := by
  refine ⟨⟨?_, fun hcond => ?_⟩, ?_⟩
  · rintro ⟨t, he, hf, rfl⟩
    obtain ⟨info, hr, -⟩ := raises_of_exec_faulted hrun he hf
    exact ((h info).mp hr).1
  · exact ⟨_, ((h x).mpr ⟨hcond, rfl⟩).exec_eq, rfl, rfl⟩
  · rintro t he hf rfl
    obtain ⟨info, hr, ht⟩ := raises_of_exec_faulted hrun he hf
    obtain ⟨-, rfl⟩ := (h info).mp hr
    exact ht

/-! ### The two stack faults -/

/-- R102, R172: the condition and the info of StackUnderflow. -/
theorem raises_stackUnderflow_iff (s : State) (i : Instr) (info : Int) :
    Raises s i .stackUnderflow info ↔
      ((needs i ≠ 0 ∧ ¬ holds (needs i) s) ∧ ∀ addr, i = .store addr → validDataAddr s addr) ∧ info = s.sp := by
  constructor
  · intro h
    cases h with
    | underflow _ h0 h hv => exact ⟨⟨⟨h0, h⟩, hv⟩, rfl⟩
  · rintro ⟨⟨⟨h0, h⟩, hv⟩, rfl⟩
    exact .underflow i h0 h hv

/-- R103, R172: the condition and the info of StackOverflow. -/
theorem raises_stackOverflow_iff (s : State) (i : Instr) (info : Int) :
    Raises s i .stackOverflow info ↔
      (i.mnemonic ∈ [.push, .load] ∧ (s.cfg.stackCap : Int) ≤ s.sp + 1 ∧ ∀ addr, i = .load addr → validDataAddr s addr) ∧
        info = s.sp + 1 := by
  constructor
  · intro h
    cases h with
    | pushRoom v h => exact ⟨⟨by simp [Instr.mnemonic], not_lt.mp h, by simp⟩, rfl⟩
    | loadRoom addr hv h => exact ⟨⟨by simp [Instr.mnemonic], not_lt.mp h, by simpa using hv⟩, rfl⟩
  · rintro ⟨⟨hi, h, hv⟩, rfl⟩
    cases i with
    | push v => exact .pushRoom v (not_lt.mpr h)
    | load addr => exact .loadRoom addr (hv addr rfl) (not_lt.mpr h)
    | _ => simp [Instr.mnemonic] at hi

/-- `needs` is R102's table of the values popped or peeked. -/
theorem needs_eq_of_row (i : Instr) (k : Nat)
    (h : (i.mnemonic ∈ [.pop, .print, .jmplt, .jmpgt, .jmpeq, .store] ∧ k = 1) ∨
      (i.mnemonic ∈ [.add, .sub, .mul] ∧ k = 2) ∨ (i.mnemonic ∈ [.push, .jmp, .load, .halt] ∧ k = 0)) :
    needs i = k := by
  cases i <;> simp [Instr.mnemonic] at h <;> exact h.symm

/-- Settles O42: the underflow row of `Raises`, with `needs i` for k; where k is 0, SP + 1 is not below it. -/
theorem underflowExactlyWhenTooFewValues : Obligations.UnderflowExactlyWhenTooFewValues := by
  intro i k s hrun hrow
  have hneeds : needs i = k := needs_eq_of_row i k (by tauto)
  have hcond : (needs i ≠ 0 ∧ ¬ holds (needs i) s) ↔ s.sp + 1 < k := by
    have hzero : k = 0 → -1 ≤ s.sp := by omega
    rw [hneeds, holds]
    omega
  exact exec_fault_iff_of_raises_iff hrun fun info => by rw [raises_stackUnderflow_iff, hcond]

/-- Settles O43: the overflow rows of `Raises`. -/
theorem overflowExactlyWhenFull : Obligations.OverflowExactlyWhenFull := fun i s hrun =>
  exec_fault_iff_of_raises_iff hrun (raises_stackOverflow_iff s i)

/-! ### SP stays in range -/

theorem spInRange_push (v : Cell) {s : State} (hs : spInRange s) (h : hasRoom s) : spInRange (push v s) := by
  simp only [spInRange, push_sp, push_cfg]
  omega

theorem spInRange_drop {s : State} (hs : spInRange s) (h : holds 1 s) : spInRange (drop s) := by
  simp only [spInRange, drop_sp, drop_cfg]
  omega

theorem spInRange_replaceTwo (r : Cell) {s : State} (hs : spInRange s) (h : holds 2 s) :
    spInRange (replaceTwo r s) := by
  simp only [spInRange, replaceTwo_sp, replaceTwo_cfg]
  omega

/-- R104: the check each completion passed keeps SP in range. -/
theorem Completes.spInRange {s t : State} {i : Instr} (h : Completes s i t) (hs : spInRange s) : spInRange t := by
  cases h with
  | push v h => exact spInRange_push v hs h
  | load addr hv h => exact spInRange_push (s.mem.read (dataIndex addr)) hs h
  | pop h => exact spInRange_drop hs h
  | print h => exact spInRange_drop hs h
  | store addr hv h => exact spInRange_drop hs h
  | alu i o r ho h ha => exact spInRange_replaceTwo r hs h
  | jmp | jmplt | jmpgt | jmpeq | halt => exact hs

/-- Settles O44: a completion by `Completes.spInRange`, and a fault leaves SP as it was. -/
theorem stackNeverWrapsAround : Obligations.StackNeverWrapsAround := by
  intro i s t hs he
  rcases exec_next_cases i s t he with hc | ⟨k, info, rfl, -⟩
  · exact hc.spInRange hs
  · exact hs

/-! ### PUSH and POP -/

/-- A push that also sets pc writes one stack cell beside pc and SP. -/
theorem stackStep_goto_push (v : Cell) (pc : Int) (s : State) (h : -1 ≤ s.sp) :
    s.StackStep (goto pc (push v s)) pc (s.sp + 1) (s.sp + 1) := by
  refine ⟨rfl, rfl, fun i hi => ?_, fun _ => rfl, rfl⟩
  exact (stackCell_push i v s).trans (if_neg (by omega))

theorem nextPc_push (s : State) : nextPc .push s = s.pc + 2 := by
  simp only [nextPc, Mnemonic.arity]
  omega

theorem nextPc_pop (s : State) : nextPc .pop s = s.pc + 1 := by simp [nextPc, Mnemonic.arity]

/-- Settles O31: with room PUSH completes as `push`, and on a full stack it raises. -/
theorem pushEffect : Obligations.PushEffect := by
  refine fun v s => ⟨fun m => rfl, fun hlo hroom => ?_, fun hfull => ?_⟩
  · refine ⟨goto (s.pc + 2) (push v s), ?_, liveStack_push v s hlo, stackStep_goto_push v _ s hlo⟩
    rw [(Completes.push v hroom).exec_eq, nextPc_push]
  · exact (Raises.pushRoom v (not_lt.mpr hfull)).exec_eq

/-- Settles O32: with a top POP completes as `drop`, and with no value live it raises. -/
theorem popEffect : Obligations.PopEffect := by
  refine fun s => ⟨fun m => rfl, fun below v hlive => ?_, fun hneg => ?_⟩
  · obtain ⟨hsp, -, hbelow⟩ := liveStack_snoc s below v hlive
    have hholds : holds 1 s := by rw [holds]; omega
    refine ⟨?_, hbelow⟩
    rw [(Completes.pop hholds).exec_eq, nextPc_pop]
    rfl
  · have hempty : ¬ holds (needs .pop) s := by rw [needs, holds]; omega
    exact (Raises.underflow .pop Nat.one_ne_zero hempty (by simp)).exec_eq

end Sys2Proof.Machine
end

section
/-! The arithmetic obligation (42_arith.md R110 to R113): what the ALU answers in each of R113's three cases, and what
ADD, SUB and MUL, taken as one shape, make of that answer. -/

namespace Sys2Proof.Machine

/-! ### The ALU -/

theorem alu_of_fits (c : Config) (o : AluOp) (a b : Cell) (h : fitsW c.W (o.exact a b)) :
    alu c o a b = .ok (o.exact a b) := if_pos h

theorem alu_of_wrap (c : Config) (o : AluOp) (a b : Cell) (h : ¬ fitsW c.W (o.exact a b))
    (hp : c.overflowPolicy = .wrap) : alu c o a b = .ok (wrapW c.W (o.exact a b)) := by
  rw [alu, if_neg h, hp]

theorem alu_of_fault (c : Config) (o : AluOp) (a b : Cell) (h : ¬ fitsW c.W (o.exact a b))
    (hp : c.overflowPolicy = .fault) : alu c o a b = .error (wrapW c.W (o.exact a b)) := by
  rw [alu, if_neg h, hp]

/-! ### The instructions that use it -/

theorem aluOp_eq_some_iff (i : Instr) (o : AluOp) :
    aluOp i = some o ↔ (i = .add ∧ o = .add) ∨ (i = .sub ∧ o = .sub) ∨ (i = .mul ∧ o = .mul) := by
  cases i <;> simp [aluOp, eq_comm]

theorem nextPc_of_aluOp {i : Instr} {o : AluOp} (ho : aluOp i = some o) (s : State) :
    nextPc i.mnemonic s = s.pc + 1 := by
  rcases (aluOp_eq_some_iff i o).mp ho with ⟨rfl, -⟩ | ⟨rfl, -⟩ | ⟨rfl, -⟩ <;> exact add_zero (s.pc + 1)

/-- R102, R110 to R112: with fewer than two values live each of the three underflows. -/
theorem raises_underflow_of_aluOp {i : Instr} {o : AluOp} (ho : aluOp i = some o) {s : State} (h : s.sp < 1) :
    Raises s i .stackUnderflow s.sp := by
  have hfew : ¬ holds 2 s := by rw [holds]; omega
  rcases (aluOp_eq_some_iff i o).mp ho with ⟨rfl, -⟩ | ⟨rfl, -⟩ | ⟨rfl, -⟩ <;>
    exact .underflow _ two_ne_zero hfew (by simp)

/-- Replacing two values by one and setting pc writes one stack cell beside pc and SP. -/
theorem stackStep_goto_replaceTwo (r : Cell) (pc : Int) (s : State) (h : 1 ≤ s.sp) :
    s.StackStep (goto pc (replaceTwo r s)) pc (s.sp - 1) (s.sp - 1) := by
  refine ⟨rfl, rfl, fun j hj => ?_, fun _ => rfl, rfl⟩
  exact (stackCell_replaceTwo j r s).trans (if_neg (by omega))

/-- An answer of the ALU completes the instruction, with the answer in the place of the two values. -/
theorem exec_of_alu_ok {i : Instr} {o : AluOp} (ho : aluOp i = some o) {s : State} {below : List Cell} {a b r : Cell}
    (hlive : liveStack s = below ++ [a, b]) (ha : alu s.cfg o a b = .ok r) :
    ∃ t, exec i s = .next t ∧ liveStack t = below ++ [r] ∧ s.StackStep t (s.pc + 1) (s.sp - 1) (s.sp - 1) := by
  obtain ⟨hsp, rfl, rfl, rfl⟩ := liveStack_snoc_two s below a b hlive
  have hholds : holds 2 s := by rw [holds]; omega
  refine ⟨goto (s.pc + 1) (replaceTwo r s), ?_, liveStack_replaceTwo r s hsp, stackStep_goto_replaceTwo r _ s hsp⟩
  rw [(Completes.alu i o r ho hholds ha).exec_eq, nextPc_of_aluOp ho]

/-- An overflow the ALU reports is the instruction's fault, with the reported value as info. -/
theorem exec_of_alu_error {i : Instr} {o : AluOp} (ho : aluOp i = some o) {s : State} {below : List Cell}
    {a b info : Cell} (hlive : liveStack s = below ++ [a, b]) (ha : alu s.cfg o a b = .error info) :
    exec i s = .next (dispatchFault i.mnemonic .arithmeticOverflow info s) := by
  obtain ⟨hsp, rfl, rfl, -⟩ := liveStack_snoc_two s below a b hlive
  have hholds : holds 2 s := by rw [holds]; omega
  exact (Raises.arith i o info ho hholds ha).exec_eq

/-- Settles O34: each of the three instructions is the shape of its ALU operation, whose exact result is `x`; the
cases are those of the ALU's answer. -/
theorem arithmeticEffect : Obligations.ArithmeticEffect := by
  intro i o x s hrow
  have ho : aluOp i = some o := (aluOp_eq_some_iff i o).mpr (by tauto)
  have hx : x = o.exact := by rcases hrow with ⟨-, rfl, rfl⟩ | ⟨-, rfl, rfl⟩ | ⟨-, rfl, rfl⟩ <;> rfl
  subst hx
  refine ⟨fun m => ⟨rfl, rfl, rfl⟩, fun below a b r hlive hr => ?_, fun below a b hlive hfit hpolicy => ?_,
    fun hfew => (raises_underflow_of_aluOp ho hfew).exec_eq⟩
  · have ha : alu s.cfg o a b = .ok r := by
      rcases hr with ⟨hfit, rfl⟩ | ⟨hfit, hpolicy, rfl⟩
      · exact alu_of_fits s.cfg o a b hfit
      · exact alu_of_wrap s.cfg o a b hfit hpolicy
    exact ⟨ha, exec_of_alu_ok ho hlive ha⟩
  · exact exec_of_alu_error ho hlive (alu_of_fault s.cfg o a b hfit hpolicy)

end Sys2Proof.Machine
end

section
/-! The output obligation (43_output.md R120): PRINT is POP with its value emitted. -/

namespace Sys2Proof.Machine

/-- R102: on an empty stack an instruction that takes one value and checks no address underflows. -/
theorem raises_underflow_of_needs_one {i : Instr} (hneeds : needs i = 1) (hstore : ∀ addr, i ≠ .store addr) {s : State}
    (h : s.sp < 0) : Raises s i .stackUnderflow s.sp := by
  have hempty : ¬ holds (needs i) s := by rw [hneeds, holds]; omega
  exact .underflow i (by omega) hempty fun addr hi => absurd hi (hstore addr)

theorem nextPc_print (s : State) : nextPc .print s = s.pc + 1 := add_zero (s.pc + 1)

/-- Settles O35: with a top PRINT completes as `drop` with the top emitted, and with no value live it raises. -/
theorem printEffect : Obligations.PrintEffect := by
  refine fun s => ⟨fun m => rfl, fun below v hlive => ?_, fun hneg => ?_⟩
  · obtain ⟨hsp, rfl, hbelow⟩ := liveStack_snoc s below v hlive
    have hholds : holds 1 s := by rw [holds]; omega
    refine ⟨?_, hbelow⟩
    rw [(Completes.print hholds).exec_eq, nextPc_print]
    rfl
  · exact (raises_underflow_of_needs_one rfl (by simp) hneg).exec_eq

end Sys2Proof.Machine
end

section
/-! The branch obligations (44_branch.md R130 to R133): the three conditional jumps are one shape, `condJump`, so their
completion is said once, over the condition under which the branch is taken. -/

namespace Sys2Proof.Machine

theorem nextPc_of_arity_two {k : Mnemonic} (hk : k.arity = 2) (s : State) : nextPc k s = s.pc + 3 := by
  rw [nextPc, hk]
  omega

/-! ### When the branch is taken -/

/-- R131: the top is below `val`, not the other way round (90_conflicts.md C6). -/
theorem taken_lt_iff (t val : Int) : Cond.lt.taken t val = true ↔ t < val := decide_eq_true_iff

theorem taken_gt_iff (t val : Int) : Cond.gt.taken t val = true ↔ t > val := decide_eq_true_iff

theorem taken_eq_iff (t val : Int) : Cond.eq.taken t val = true ↔ t = val := decide_eq_true_iff

/-! ### The shape the conditional jumps share -/

/-- With `t` on top a conditional jump writes pc and nothing else; `p` is the condition `c` tests. -/
theorem condJump_of_top {k : Mnemonic} (hk : k.arity = 2) {s : State} {below : List Cell} {t : Cell}
    (hlive : liveStack s = below ++ [t]) {c : Cond} {val : Cell} {p : Prop} [Decidable p]
    (hp : c.taken t val = true ↔ p) (addr : Cell) :
    condJump k c val addr s = .next { s with pc := if p then addr else s.pc + 3 } := by
  obtain ⟨hsp, rfl, -⟩ := liveStack_snoc s below t hlive
  have hholds : holds 1 s := by rw [holds]; omega
  rw [condJump, checkHolds, if_pos hholds, nextPc_of_arity_two hk, if_congr hp rfl rfl, goto]

/-! ### The obligations -/

/-- Settles O36: JMP checks nothing, so it completes in every state. -/
theorem jumpEffect : Obligations.JumpEffect := fun addr _ => ⟨fun _ => rfl, (Completes.jmp addr).exec_eq⟩

/-- Settles O37: with a top each is `condJump` at its own condition, and with no value live it raises. -/
theorem conditionalJumpEffect : Obligations.ConditionalJumpEffect := by
  refine fun val addr s => ⟨fun m => ⟨rfl, rfl, rfl⟩, fun below t hlive => ⟨?_, ?_, ?_⟩, fun hneg => ?_⟩
  · exact condJump_of_top rfl hlive (taken_lt_iff t val) addr
  · exact condJump_of_top rfl hlive (taken_gt_iff t val) addr
  · exact condJump_of_top rfl hlive (taken_eq_iff t val) addr
  · refine ⟨?_, ?_, ?_⟩ <;> exact (raises_underflow_of_needs_one rfl (by simp) hneg).exec_eq

end Sys2Proof.Machine
end

section
/-! The load and store obligations (45_loadstore.md R140, R141): LOAD is PUSH of a memory cell and STORE is POP into
one, behind an address check that comes first (60_exceptions.md R172). -/

namespace Sys2Proof.Machine

theorem nextPc_of_arity_one {k : Mnemonic} (hk : k.arity = 1) (s : State) : nextPc k s = s.pc + 2 := by
  rw [nextPc, hk]
  omega

/-- R41: outside the data memory there is no valid address. -/
theorem not_validDataAddr_of_outside {s : State} {addr : Int} (h : addr < 0 ∨ (s.cfg.memCap : Int) ≤ addr) :
    ¬ validDataAddr s addr := by
  rw [validDataAddr]
  omega

/-- Settles O38: past both checks LOAD completes as `push` of the cell read; each check that fails raises, the
address first. -/
theorem loadEffect : Obligations.LoadEffect := by
  refine fun addr s => ⟨fun m => rfl, fun hlo hhi hsp hroom => ?_, fun hout => ?_, fun hlo hhi hfull => ?_⟩
  · refine ⟨goto (s.pc + 2) (push (s.mem.read (dataIndex addr)) s), ?_, liveStack_push _ s hsp,
      stackStep_goto_push _ _ s hsp⟩
    rw [(Completes.load addr ⟨hlo, hhi⟩ hroom).exec_eq, nextPc_of_arity_one rfl]
  · exact (Raises.loadAddr addr (not_validDataAddr_of_outside hout)).exec_eq
  · exact (Raises.loadRoom addr ⟨hlo, hhi⟩ (not_lt.mpr hfull)).exec_eq

/-- Settles O39: past both checks STORE completes as `drop` with the top written to the cell; each check that fails
raises, the address first. -/
theorem storeEffect : Obligations.StoreEffect := by
  refine fun addr s => ⟨fun m => rfl, fun below v hlo hhi hlive => ?_, fun hout => ?_, fun hlo hhi hneg => ?_⟩
  · obtain ⟨hsp, rfl, hbelow⟩ := liveStack_snoc s below v hlive
    have hholds : holds 1 s := by rw [holds]; omega
    refine ⟨goto (s.pc + 2) (memWrite (dataIndex addr) (top s) (drop s)), ?_, rfl, hbelow, ?_,
      Int.toNat_of_nonneg hlo, fun a ha => ?_⟩
    · rw [(Completes.store addr ⟨hlo, hhi⟩ hholds).exec_eq, nextPc_of_arity_one rfl]
    · exact (read_write s.mem _ _ (top s)).trans (if_pos rfl)
    · exact (read_write s.mem _ a (top s)).trans (if_neg ha)
  · exact (Raises.storeAddr addr (not_validDataAddr_of_outside hout)).exec_eq
  · have hempty : ¬ holds (needs (.store addr)) s := by rw [needs, holds]; omega
    have hvalid : ∀ a, Instr.store addr = .store a → validDataAddr s a := by
      rintro _ ⟨⟩
      exact ⟨hlo, hhi⟩
    exact (Raises.underflow (.store addr) Nat.one_ne_zero hempty hvalid).exec_eq

end Sys2Proof.Machine
end

section
/-! The halt obligation (46_halt.md R150, R151): HALT checks nothing, so it completes in every state, and its dump is
the list `M[0..MEM_CAP-1]`. -/

namespace Sys2Proof.Machine

/-! ### The dump's cells -/

@[simp] theorem memCells_length (s : State) : (memCells s).length = s.cfg.memCap := by
  rw [memCells, List.length_map, List.length_range]

/-- R151: the dump's cells stand in ascending order of address. -/
theorem memCells_getElem?_of_lt (s : State) {a : Nat} (h : a < s.cfg.memCap) :
    (memCells s)[a]? = some (s.mem.read a) := by
  rw [memCells, List.getElem?_map, List.getElem?_range h, Option.map_some]

/-! ### HALT -/

theorem nextPc_halt (s : State) : nextPc .halt s = s.pc + 1 := add_zero (s.pc + 1)

/-- Settles O41: HALT completes in every state, and the cells it dumps are `memCells`. -/
theorem haltEffect : Obligations.HaltEffect := by
  refine fun s => ⟨fun m => rfl, memCells s, memCells_length s, fun a ha => memCells_getElem?_of_lt s ha, ?_⟩
  rw [Completes.halt.exec_eq, nextPc_halt]
  rfl

end Sys2Proof.Machine
end

section
/-! The fault obligations (60_exceptions.md R160, R163, R166): a step that ends Faulted was stopped before dispatch, by
one of the cases of `StopsFetch`, or in dispatch, by one of `Raises`; each obligation is read off those two. -/

namespace Sys2Proof.Machine

/-! ### The two ways a step faults -/

/-- The step reads the opcode cell at pc: no host stop is due (R168, R169) and pc is inside the program (R82). -/
def Fetches (s : State) : Prop :=
  (hostLines s).abort = false ∧ budgetSpent s = false ∧ 0 ≤ s.pc ∧ s.pc < (s.prog.length : Int)

/-- The faults of a step before its dispatch: kind, opcode and info, and when (R168, R169, R82, R83, R84). -/
inductive StopsFetch (s : State) : FaultKind → Option Cell → Int → Prop where
  | cancelled (h : (hostLines s).abort = true) : StopsFetch s .cancelled none s.pc
  | budget (b : Nat) (hb : s.cfg.stepBudget = some b) (hs : b ≤ s.steps) : StopsFetch s .budgetExhausted none s.steps
  | noCell (h : s.pc < 0 ∨ (s.prog.length : Int) ≤ s.pc) : StopsFetch s .unexpectedEndOfProgram none s.pc
  | unknown (hf : Fetches s) (op : Cell) (hop : s.prog[s.pc.toNat]? = some op)
      (h : ∀ k, s.cfg.opcodeMap.value k ≠ op) : StopsFetch s .unknownOpcode (some op) op
  | missing (hf : Fetches s) (k : Mnemonic) (hop : s.prog[s.pc.toNat]? = some (s.cfg.opcodeMap.value k))
      (h : (s.prog.length : Int) ≤ s.pc + k.arity) :
      StopsFetch s .unexpectedEndOfProgram (some (s.cfg.opcodeMap.value k)) s.prog.length

theorem not_fetches_iff (s : State) : ¬ Fetches s ↔ (hostLines s).abort = true ∨
    (∃ b, s.cfg.stepBudget = some b ∧ b ≤ s.steps) ∨ s.pc < 0 ∨ (s.prog.length : Int) ≤ s.pc := by
  rw [Fetches, not_and_or, not_and_or, not_and_or, Bool.not_eq_false, Bool.not_eq_false, budgetSpent_iff, not_le,
    not_lt]

theorem fetches_of_getElem? {s : State} {op : Cell} (ha : (hostLines s).abort = false) (hb : budgetSpent s = false)
    (h0 : 0 ≤ s.pc) (hop : s.prog[s.pc.toNat]? = some op) : Fetches s := by
  obtain ⟨hlt, -⟩ := List.getElem?_eq_some_iff.mp hop
  exact ⟨ha, hb, h0, by omega⟩

/-- R63: a decoded instruction's opcode is the cell at pc. -/
theorem opcode_at_pc_of_decode {m : OpcodeMap} {prog : List Cell} {pc : Int} {i : Instr}
    (hd : decode m prog pc = .ok i) : 0 ≤ pc ∧ prog[pc.toNat]? = some (m.value i.mnemonic) := by
  rcases decode_cases m prog pc with ⟨he, -⟩ | ⟨op, he, -⟩ | ⟨k, he, -⟩ | ⟨j, rest, hj, h0, hop, -⟩
  · simp [hd] at he
  · simp [hd] at he
  · simp [hd] at he
  · obtain rfl : i = j := by simpa [hd] using hj
    exact ⟨h0, hop⟩

/-- A Running core's step that ends Faulted is fault entry, before dispatch or in it. -/
theorem step_faulted_cases {s t : State} (hrun : s.run = .running) (hstep : step s = .next t)
    (hfault : t.run = .faulted) :
    (∃ k op info, StopsFetch s k op info ∧ t = raise k op info (sampleHost s)) ∨
      ∃ i k info, Fetches s ∧ decode s.cfg.opcodeMap s.prog s.pc = .ok i ∧ Raises (dispatchState i s) i k info ∧
        t = dispatchFault i.mnemonic k info (dispatchState i s) := by
  obtain ⟨-, ⟨-, rfl⟩ | ⟨-, hidle, -⟩ | ⟨-, -, -, hc⟩⟩ := step_cases s t hstep
  · simp at hfault
  · exact absurd hrun hidle
  · cases hc with
    | cancelled h => exact .inl ⟨_, _, _, .cancelled h, rfl⟩
    | budget ha b hb hs => exact .inl ⟨_, _, _, .budget b hb hs, rfl⟩
    | noCell ha hb h => exact .inl ⟨_, _, _, .noCell h, rfl⟩
    | unknown ha hb op h0 hop h => exact .inl ⟨_, _, _, .unknown (fetches_of_getElem? ha hb h0 hop) op hop h, rfl⟩
    | missing ha hb k h0 hop h => exact .inl ⟨_, _, _, .missing (fetches_of_getElem? ha hb h0 hop) k hop h, rfl⟩
    | raises ha hb i hd k info hr =>
      obtain ⟨h0, hop⟩ := opcode_at_pc_of_decode hd
      exact .inr ⟨i, k, info, fetches_of_getElem? ha hb h0 hop, hd, hr, rfl⟩
    | completes ha hb i hd u hu => exact absurd hfault (hu.run_ne_faulted hrun)

/-! ### What the fault record says -/

theorem StopsFetch.kind_isDispatch {s : State} {k : FaultKind} {op : Option Cell} {info : Int}
    (h : StopsFetch s k op info) : k.isDispatch = false := by cases h <;> rfl

theorem StopsFetch.kind_ne_none {s : State} {k : FaultKind} {op : Option Cell} {info : Int}
    (h : StopsFetch s k op info) : k ≠ .none := by cases h <;> simp

/-- The opcode a fault before dispatch records is the cell the step read. -/
theorem StopsFetch.opcode_at_pc {s : State} {k : FaultKind} {op : Cell} {info : Int}
    (h : StopsFetch s k (some op) info) : 0 ≤ s.pc ∧ s.prog[s.pc.toNat]? = some op := by
  cases h with
  | unknown hf _ hop _ | missing hf _ hop _ =>
    obtain ⟨-, -, h0, -⟩ := hf
    exact ⟨h0, hop⟩

/-- A fault before dispatch records no opcode exactly where the step read no cell. -/
theorem StopsFetch.opcode_eq_none_iff {s : State} {k : FaultKind} {op : Option Cell} {info : Int}
    (h : StopsFetch s k op info) : op = none ↔ ¬ Fetches s := by
  cases h with
  | cancelled h => exact iff_of_true rfl ((not_fetches_iff s).mpr (.inl h))
  | budget b hb hs => exact iff_of_true rfl ((not_fetches_iff s).mpr (.inr (.inl ⟨b, hb, hs⟩)))
  | noCell h => exact iff_of_true rfl ((not_fetches_iff s).mpr (.inr (.inr h)))
  | unknown hf _ _ _ | missing hf _ _ _ => exact iff_of_false (Option.some_ne_none _) (not_not_intro hf)

/-- Settles O22: before dispatch fault entry is taken from the sampled state, in dispatch from the state whose log ends
in the step's own Trace. -/
theorem faultEntryIsPrecise : Obligations.FaultEntryIsPrecise := by
  refine ⟨fun k op info s => rfl, fun s t hrun hstep hfault => ?_⟩
  rw [← not_fetches_iff]
  rcases step_faulted_cases hrun hstep hfault with ⟨k, op, info, hs, rfl⟩ | ⟨i, k, info, hf, hd, hr, rfl⟩
  · refine ⟨rfl, fun hdispatch => ?_, fun _ => rfl, ?_, hs.opcode_eq_none_iff⟩
    · exact absurd hdispatch (Bool.eq_false_iff.mp hs.kind_isDispatch)
    · rintro op' rfl
      exact hs.opcode_at_pc
  · refine ⟨rfl, fun _ => ⟨i, hd, rfl, rfl⟩, fun hdispatch => ?_, ?_, ?_⟩
    · exact absurd hr.kind_isDispatch (Bool.eq_false_iff.mp hdispatch)
    · rintro op ⟨⟩
      exact opcode_at_pc_of_decode hd
    · exact iff_of_false (Option.some_ne_none _) (not_not_intro hf)

/-! ### The rows of R160's table -/

/-- R113, R115: the ALU reports overflow only under `fault`, for a result that does not fit, and reports it wrapped. -/
theorem of_alu_eq_error {c : Config} {o : AluOp} {a b info : Cell} (h : alu c o a b = .error info) :
    c.overflowPolicy = .fault ∧ ¬ fitsW c.W (o.exact a b) ∧ info = wrapW c.W (o.exact a b) := by
  by_cases hfit : fitsW c.W (o.exact a b)
  · simp [alu_of_fits c o a b hfit] at h
  · cases hp : c.overflowPolicy with
    | wrap => simp [alu_of_wrap c o a b hfit hp] at h
    | fault =>
      rw [alu_of_fault c o a b hfit hp] at h
      cases h
      exact ⟨rfl, hfit, rfl⟩

/-- R102: an instruction that takes values takes one or two. -/
theorem needs_row {i : Instr} (h0 : needs i ≠ 0) :
    (i.mnemonic ∈ [.pop, .print, .jmplt, .jmpgt, .jmpeq, .store] ∧ needs i = 1) ∨
      (i.mnemonic ∈ [.add, .sub, .mul] ∧ needs i = 2) := by
  cases i <;> simp [needs, Instr.mnemonic] at h0 ⊢

/-- Rows 3 to 6 of the table: the faults of dispatch, with the instructions that raise them. -/
def DispatchRow (s : State) (i : Instr) (kind : FaultKind) (info : Int) : Prop :=
  (kind = .stackUnderflow ∧ info = s.sp ∧
    ((i.mnemonic ∈ [.pop, .print, .jmplt, .jmpgt, .jmpeq, .store] ∧ s.sp < 0) ∨
      (i.mnemonic ∈ [.add, .sub, .mul] ∧ s.sp < 1))) ∨
  (kind = .stackOverflow ∧ info = s.sp + 1 ∧ i.mnemonic ∈ [.push, .load] ∧ (s.cfg.stackCap : Int) ≤ s.sp + 1) ∨
  (kind = .invalidMemoryAddress ∧ ∃ addr : Int, (i = .load addr ∨ i = .store addr) ∧ info = addr ∧
    (addr < 0 ∨ (s.cfg.memCap : Int) ≤ addr)) ∨
  (kind = .arithmeticOverflow ∧ s.cfg.overflowPolicy = .fault ∧
    ∃ o, (i, o) ∈ [(Instr.add, AluOp.add), (Instr.sub, AluOp.sub), (Instr.mul, AluOp.mul)] ∧
      ¬ fitsW s.cfg.W (o.exact (underTop s) (top s)) ∧ info = wrapW s.cfg.W (o.exact (underTop s) (top s)))

theorem outside_of_not_validDataAddr {s : State} {addr : Int} (h : ¬ validDataAddr s addr) :
    addr < 0 ∨ (s.cfg.memCap : Int) ≤ addr := by
  rw [validDataAddr] at h
  omega

/-- Every fault of dispatch is one of those rows. -/
theorem Raises.dispatchRow {s : State} {i : Instr} {kind : FaultKind} {info : Int} (h : Raises s i kind info) :
    DispatchRow s i kind info := by
  cases h with
  | loadAddr _ h => exact .inr (.inr (.inl ⟨rfl, _, .inl rfl, rfl, outside_of_not_validDataAddr h⟩))
  | storeAddr _ h => exact .inr (.inr (.inl ⟨rfl, _, .inr rfl, rfl, outside_of_not_validDataAddr h⟩))
  | underflow i h0 h hv =>
    refine .inl ⟨rfl, rfl, (needs_row h0).imp (And.imp_right fun hn => ?_) (And.imp_right fun hn => ?_)⟩ <;>
    · rw [holds, hn] at h
      omega
  | pushRoom v h => exact .inr (.inl ⟨rfl, rfl, by simp [Instr.mnemonic], not_lt.mp h⟩)
  | loadRoom addr hv h => exact .inr (.inl ⟨rfl, rfl, by simp [Instr.mnemonic], not_lt.mp h⟩)
  | arith i o info ho h ha =>
    obtain ⟨hpolicy, hfit, rfl⟩ := of_alu_eq_error ha
    exact .inr (.inr (.inr ⟨rfl, hpolicy, o, by simpa using (aluOp_eq_some_iff i o).mp ho, hfit, rfl⟩))

/-- The Trace and the host's sample change nothing a row speaks of. -/
theorem dispatchRow_dispatchState (j : Instr) (s : State) (i : Instr) (kind : FaultKind) (info : Int) :
    DispatchRow (dispatchState j s) i kind info ↔ DispatchRow s i kind info := Iff.rfl

/-- R160: the codes of the eight kinds. -/
theorem code_row_of_ne_none {k : FaultKind} (h : k ≠ .none) : (k, k.code) ∈
    [(FaultKind.unknownOpcode, 1), (.unexpectedEndOfProgram, 2), (.stackUnderflow, 3), (.stackOverflow, 4),
     (.invalidMemoryAddress, 5), (.arithmeticOverflow, 6), (.budgetExhausted, 7), (.cancelled, 8)] := by
  cases k <;> simp [FaultKind.code] at h ⊢

/-- Settles O23: a fault before dispatch is its case of `StopsFetch`, and one in dispatch its `DispatchRow`. -/
theorem everyFaultHasItsCause : Obligations.EveryFaultHasItsCause := by
  intro s t hrun hstep hfault
  rcases step_faulted_cases hrun hstep hfault with ⟨k, op, info, hs, rfl⟩ | ⟨i, k, info, -, hd, hr, rfl⟩
  · refine ⟨rfl, code_row_of_ne_none hs.kind_ne_none, ?_⟩
    cases hs with
    | cancelled h => exact .inl ⟨rfl, rfl, rfl, h⟩
    | budget b hb hs => exact .inr (.inl ⟨rfl, rfl, rfl, b, hb, hs⟩)
    | noCell h => exact .inr (.inr (.inl ⟨rfl, rfl, rfl, h⟩))
    | unknown hf _ hop h => exact .inr (.inr (.inr (.inl ⟨_, rfl, rfl, rfl, hop, h⟩)))
    | missing hf k hop h => exact .inr (.inr (.inr (.inr (.inl ⟨k, rfl, rfl, rfl, hop, h⟩))))
  · refine ⟨rfl, code_row_of_ne_none hr.kind_ne_none, ?_⟩
    have hrow : DispatchRow s i k info := (dispatchRow_dispatchState i s i k info).mp hr.dispatchRow
    exact .inr (.inr (.inr (.inr (.inr ⟨i, hd, rfl, hrow⟩))))

/-- Settles O24: the only row of that kind is the ALU's, which asks for the policy `fault`. -/
theorem noArithmeticOverflowUnderWrap : Obligations.NoArithmeticOverflowUnderWrap := by
  rintro s t hwrap hrun hstep ⟨hfault, hkind⟩
  rcases step_faulted_cases hrun hstep hfault with ⟨k, op, info, hs, rfl⟩ | ⟨i, k, info, -, -, hr, rfl⟩
  · obtain rfl : k = .arithmeticOverflow := hkind
    cases hs
  · obtain rfl : k = .arithmeticOverflow := hkind
    cases hr with
    | arith i o info ho h ha =>
      obtain ⟨hpolicy, -⟩ := of_alu_eq_error ha
      exact absurd (hwrap.symm.trans hpolicy) (by simp)

end Sys2Proof.Machine
end

section
/-! The other encoding obligations (30_encoding.md R60, R63 to R65, R70): the decoder undoes the encoder anywhere in a
program, and what it decodes is an encoding that stands there. -/

namespace Sys2Proof

/-- R60, R65: the cell decoder takes an encoding's cells and leaves the cells after it. -/
theorem decodeCells_encode (m : OpcodeMap) (h : m.values.Nodup) (i : Instr) (after : List Cell) :
    decodeCells m (encode m i ++ after) = .ok (i, after) := by
  simp [encode, decodeCells, lookup_value m h]

theorem decode_encode (m : OpcodeMap) (h : m.values.Nodup) (i : Instr) (before after : List Cell) :
    decode m (before ++ encode m i ++ after) (before.length : Int) = .ok i := by
  have hinside : ¬ ((before.length : Int) < 0 ∨ ((before ++ encode m i ++ after).length : Int) ≤ before.length) := by
    simp only [List.length_append, encode_length]
    omega
  rw [decode, if_neg hinside, Int.toNat_natCast, List.append_assoc, List.drop_left, decodeCells_encode m h]

/-- Settles O12: the program up to the encoding is dropped, and the lookup and the operand taker undo the encoder. -/
theorem decodeEncodeRoundTrip : Obligations.DecodeEncodeRoundTrip := fun m i before after h =>
  ⟨decode_encode m h i before after, decodeCells_encode m h i after⟩

/-- Where a decoded instruction's cells stand. -/
theorem of_decode_eq_ok {m : OpcodeMap} {prog : List Cell} {pc : Int} {i : Instr} (hd : decode m prog pc = .ok i) :
    0 ≤ pc ∧ pc + i.mnemonic.arity < prog.length ∧ ∃ rest, prog.drop pc.toNat = encode m i ++ rest := by
  rcases decode_cases m prog pc with ⟨he, -⟩ | ⟨op, he, -⟩ | ⟨k, he, -⟩ | ⟨j, rest, hj, h0, -, -, hcells, hend⟩
  · simp [hd] at he
  · simp [hd] at he
  · simp [hd] at he
  · obtain rfl : i = j := by simpa [hd] using hj
    exact ⟨h0, hend, rest, hcells⟩

/-- Settles O13: the cells before pc are the first `pc` cells of the program. -/
theorem decodedCellsAreTheEncoding : Obligations.DecodedCellsAreTheEncoding := by
  intro m prog pc i hd
  obtain ⟨h0, hend, rest, hcells⟩ := of_decode_eq_ok hd
  refine ⟨h0, by omega, ⟨prog.take pc.toNat, rest, ?_, ?_⟩, encode_length m i⟩
  · rw [List.append_assoc, ← hcells, List.take_append_drop]
  · rw [List.length_take_of_le (by omega), Int.toNat_of_nonneg h0]

/-- R64: well-formed is a matter of the operand cells alone. -/
theorem wellFormed_iff (W : Nat) (i : Instr) : i.WellFormed W ↔ ∀ c ∈ i.operands, fitsW W c := by
  cases i <;> simp [Instr.WellFormed, Instr.operands]

/-- Settles O14: a decoded instruction's operands are cells of the program. -/
theorem decodedInstructionsAreWellFormed : Obligations.DecodedInstructionsAreWellFormed := by
  intro W m prog pc i hfits hd
  obtain ⟨-, -, rest, hcells⟩ := of_decode_eq_ok hd
  refine (wellFormed_iff W i).mpr fun c hc => hfits c (List.mem_of_mem_drop (i := pc.toNat) ?_)
  rw [hcells]
  exact List.mem_append_left rest (List.mem_cons_of_mem _ hc)

/-- Settles O17: the decoder and the encoder, run on the cells written out. -/
theorem writtenWordsDecode : Obligations.WrittenWordsDecode := by
  refine ⟨?_, ?_, ?_, ?_, ?_, ?_, ?_⟩ <;> decide

end Sys2Proof
end

section
/-! The number obligations (00_scope.md R9, 20_memory.md R43, 42_arith.md R114, R115): `wrapW` is the one W-bit value of
its argument's class modulo 2^W, and what follows of overflow and of serialised cells. -/

namespace Sys2Proof

open Sys2Proof.Machine

/-! ### The congruent cell -/

/-- Settles O48: two W-bit values of one class are one value, for each is its own wrap. -/
theorem wrapIsTheCongruentCell : Obligations.WrapIsTheCongruentCell := by
  intro W x y hW
  constructor
  · rintro rfl
    exact ⟨wrapW_fits W x hW, Int.modEq_iff_dvd.mp (wrapW_emod W x)⟩
  · rintro ⟨hy, hdvd⟩
    rw [wrapW_congr W x y (Int.modEq_iff_dvd.mpr hdvd).symm, wrapW_of_fits W y hW hy]

/-- The ALU's exact operations respect congruence. -/
theorem exact_modEq (o : AluOp) {n a a' b b' : Int} (ha : a ≡ a' [ZMOD n]) (hb : b ≡ b' [ZMOD n]) :
    o.exact a b ≡ o.exact a' b' [ZMOD n] := by
  cases o with
  | add => exact ha.add hb
  | sub => exact ha.sub hb
  | mul => exact ha.mul hb

/-- Settles O49: a cell and its unsigned reading are of one class. -/
theorem signedAndUnsignedResultsAgree : Obligations.SignedAndUnsignedResultsAgree := by
  intro W o a b _
  exact wrapW_congr W _ _ (exact_modEq o (unsignedW_emod W a).symm (unsignedW_emod W b).symm)

/-! ### Overflow -/

/-- One multiple of 2^W brings back a value that is less than 2^W out of range. -/
theorem wrapW_of_fits_shift {W : Nat} (hW : 1 ≤ W) (x : Int) {k : Int} (h : fitsW W (x - k * ((2 ^ W : Nat) : Int))) :
    wrapW W x = x - k * ((2 ^ W : Nat) : Int) := by
  rw [← wrapW_of_fits W _ hW h]
  exact wrapW_congr W _ _ (Int.sub_mul_emod_self_right x k _).symm

/-- R115: a sum out of range is brought back by one 2^W, across 0. -/
theorem signs_of_add_overflow {W : Nat} {a b : Int} (hW : 1 ≤ W) (ha : fitsW W a) (hb : fitsW W b)
    (hover : ¬ fitsW W (a + b)) : (a < 0 ↔ b < 0) ∧ (wrapW W (a + b) < 0 ↔ ¬ a < 0) := by
  have hdouble := two_pow_eq_double W hW
  have hhalf := half_pos W
  have hup := wrapW_of_fits_shift hW (a + b) (k := 1)
  have hdown := wrapW_of_fits_shift hW (a + b) (k := -1)
  simp only [fitsW, cellMin, cellMax] at ha hb hover hup hdown
  rcases not_and_or.mp hover with hlow | hhigh
  · rw [hdown (by omega)]
    omega
  · rw [hup (by omega)]
    omega

/-- Settles O50: the sum by `signs_of_add_overflow`; nothing is below the least value, and its negation is
2^(W-1). -/
theorem overflowSigns : Obligations.OverflowSigns := by
  intro W a b hW ha hb
  have hhalf := half_pos W
  refine ⟨signs_of_add_overflow hW ha hb, ?_, ?_⟩ <;>
  · simp only [fitsW, cellMin, cellMax, AluOp.exact]
    omega

/-! ### Serialised cells -/

theorem bytesPerCell_bounds (W : Nat) : 8 * bytesPerCell W < W + 8 ∧ W ≤ 8 * bytesPerCell W := by
  unfold bytesPerCell
  omega

/-- Cutting off bytes above bit W - 1, and the padding, leaves the cell's class. -/
theorem wrapW_padded (W pad : Nat) (c : Cell) :
    wrapW W (((unsignedW W c + 2 ^ W * pad) % 256 ^ bytesPerCell W : Nat) : Int) = wrapW W c := by
  have hdvd : 2 ^ W ∣ 256 ^ bytesPerCell W := by
    rw [show 256 = 2 ^ 8 from rfl, ← Nat.pow_mul]
    exact Nat.pow_dvd_pow 2 (bytesPerCell_bounds W).2
  have hmod : (unsignedW W c + 2 ^ W * pad) % 256 ^ bytesPerCell W % 2 ^ W = unsignedW W c % 2 ^ W := by
    rw [Nat.mod_mod_of_dvd _ hdvd, Nat.add_mul_mod_self_left]
  refine wrapW_congr W _ _ ?_
  rw [← unsignedW_emod W c, ← Int.natCast_mod, hmod, Int.natCast_mod]

/-- Settles O18: the bytes are `littleEndian`'s, which reads back modulo 256^ceil(W/8), a multiple of 2^W. -/
theorem serialisedCellsReadBack : Obligations.SerialisedCellsReadBack := by
  intro W pad c hW hc
  refine ⟨cellToBytes_length W pad c, fun j hj => ?_, ?_, bytesPerCell_bounds W⟩
  · rw [cellToBytes, littleEndian_getElem? _ _ j hj, Option.map_some, BitVec.toNat_ofNat]
  · rw [cellOfBytes, cellToBytes, ofLittleEndian_littleEndian, wrapW_padded, wrapW_of_fits W c hW hc]

end Sys2Proof
end

section
/-! The obligations on the boundary itself (40_cycle.md R80, R86 to R88; 70_reset_and_hazards.md R190 to R194): reset,
the idle boundary, the model's two stops, and the step of a decoded instruction. -/

namespace Sys2Proof.Machine

/-! ### Reset -/

/-- Settles O3: each register of the reset state is `State.boot`'s, with the default configuration. -/
theorem resetValuesAreTheSpecs : Obligations.ResetValuesAreTheSpecs :=
  ⟨rfl, rfl, read_nil, rfl, rfl, rfl, rfl, rfl, rfl, rfl, rfl, rfl, rfl, rfl, rfl, rfl, rfl⟩

/-- Settles O1: the boundary answers `State.boot`, with SP at -1 and so nothing live. -/
theorem resetRestoresEveryState : Obligations.ResetRestoresEveryState := by
  intro s hadm hreset
  refine ⟨_, step_reset s hadm hreset, rfl, rfl, liveStack_of_neg _ ?_, read_nil, rfl, rfl, rfl, rfl, rfl, rfl, rfl,
    rfl, rfl, rfl⟩
  simp

/-- R192: what a reset boundary answers depends on the configuration, the program and the host's lines alone. -/
theorem step_eq_of_reset {s u : State} (hcfg : s.cfg = u.cfg) (hprog : s.prog = u.prog) (hhost : s.hostIn = u.hostIn)
    (hreset : (hostLines s).reset = true) : step s = step u := by
  have hlines : hostLines u = hostLines s := by rw [hostLines, hostLines, hhost]
  by_cases hadm : s.cfg.Admissible s.prog.length
  · rw [step_reset s hadm hreset, step_reset u (by rwa [← hcfg, ← hprog]) (by rwa [hlines]), hcfg, hprog, hhost]
  · rw [step_refused s hadm, step_refused u (by rwa [← hcfg, ← hprog])]

/-- A run of at least one boundary is decided by its first step. -/
theorem core_run_succ_congr {s u : State} (h : step s = step u) (k : Nat) :
    Sys2Proof.core.run (k + 1) s = Sys2Proof.core.run (k + 1) u := by
  have h' : Sys2Proof.core.step s = Sys2Proof.core.step u := h
  simp only [Host.Core.run, h']

/-- Settles O2: the two first boundaries answer alike. -/
theorem resetForgetsThePast : Obligations.ResetForgetsThePast := fun _ _ hcfg hprog hhost hreset k =>
  core_run_succ_congr (step_eq_of_reset hcfg hprog hhost hreset) k

/-! ### Idle boundaries, stops, what no step changes -/

/-- Settles O21: the idle boundary takes its host sample. -/
theorem terminalStatesKeepEverything : Obligations.TerminalStatesKeepEverything := fun s hadm hrun hreset =>
  step_idle s hadm hreset hrun

/-- R22: in an admitted configuration a state that is not stuck has a next state. -/
theorem step_total_of_not_stuck (s : State) (hadm : s.cfg.Admissible s.prog.length)
    (h : ¬ ((hostLines s).reset = false ∧ s.run = .running ∧ ¬ spInRange s)) : ∃ t, step s = .next t :=
  step_total s hadm fun hreset hrun => by_contra fun hsp => h ⟨hreset, hrun, hsp⟩

/-- Settles O11: a state that does not stop the model has a next state, which is neither stop. -/
theorem modelStopsOnlyOnIllegalStates : Obligations.ModelStopsOnlyOnIllegalStates := by
  refine fun s => ⟨⟨?_, fun hadm => ⟨_, step_refused s hadm⟩⟩,
    ⟨?_, fun ⟨hadm, hreset, hrun, hsp⟩ => ⟨_, step_stuck s hadm hreset hrun hsp⟩⟩⟩
  · rintro ⟨r, hr⟩ hadm
    by_cases hstuck : (hostLines s).reset = false ∧ s.run = .running ∧ ¬ spInRange s
    · obtain ⟨hreset, hrun, hsp⟩ := hstuck
      simp [step_stuck s hadm hreset hrun hsp] at hr
    · obtain ⟨t, ht⟩ := step_total_of_not_stuck s hadm hstuck
      simp [ht] at hr
  · rintro ⟨f, hf⟩
    by_cases hadm : s.cfg.Admissible s.prog.length
    · refine ⟨hadm, by_contra fun hstuck => ?_⟩
      obtain ⟨t, ht⟩ := step_total_of_not_stuck s hadm hstuck
      simp [ht] at hf
    · simp [step_refused s hadm] at hf

/-- Settles O26: a reset, an idle boundary and a step of R81 each keep both. -/
theorem nothingChangesTheProgram : Obligations.NothingChangesTheProgram := by
  intro s t h
  obtain ⟨-, ⟨-, rfl⟩ | ⟨-, -, rfl⟩ | ⟨-, -, -, hc⟩⟩ := step_cases s t h
  · exact ⟨rfl, rfl⟩
  · exact ⟨rfl, rfl⟩
  · obtain ⟨hcfg, hprog, -⟩ := hc.frame
    exact ⟨hprog, hcfg⟩

/-! ### The step of a decoded instruction -/

theorem values_nodup_of_admissible {c : Config} {n : Nat} (h : c.Admissible n) : c.opcodeMap.values.Nodup := by
  obtain ⟨-, -, -, -, -, hnodup⟩ := h
  exact hnodup

theorem fetchAndRun_of_ok (s : State) (i : Instr) (h : decode s.cfg.opcodeMap s.prog s.pc = .ok i) :
    fetchAndRun s = runInstr i s := by
  rw [fetchAndRun, h]

/-- In a Free state the step of a decoded instruction is its trace, its dispatch and the commit. -/
theorem State.Free.step_of_decode_ok {s : State} (h : s.Free) {i : Instr}
    (hd : decode s.cfg.opcodeMap s.prog s.pc = .ok i) : step s = runInstr i (sampleHost s) :=
  h.step_eq.trans (fetchAndRun_of_ok (sampleHost s) i hd)

theorem State.Free.running {s : State} (h : s.Free) : s.run = .running := by
  obtain ⟨⟨-, -, hrun, -⟩, -⟩ := h
  exact hrun

theorem State.Free.step_of_completes {s t : State} {i : Instr} (h : s.Free)
    (hd : decode s.cfg.opcodeMap s.prog s.pc = .ok i) (hc : Completes (dispatchState i s) i t) :
    step s = .next (countStep t) :=
  (h.step_of_decode_ok hd).trans (runInstr_of_completes h.running hc)

/-- R88: the commit counts a step that did not end Faulted. -/
theorem commit_next (t : State) :
    commit (.next t) = .next (if t.run = .faulted then t else { t with steps := t.steps + 1 }) := by
  by_cases hf : t.run = .faulted
  · rw [commit_of_faulted t hf, if_pos hf]
  · rw [commit_of_not_faulted t hf, if_neg hf, countStep]

/-- Settles O19: the given state is `dispatchState i s`, where `runInstr` dispatches. -/
theorem stepRunsTheDecodedInstruction : Obligations.StepRunsTheDecodedInstruction := by
  intro s t i hfree hd hexec
  have hdispatch : exec i (dispatchState i s) = .next t := hexec
  have hrun : runInstr i (sampleHost s) = commit (exec i (dispatchState i s)) := rfl
  rw [hfree.step_of_decode_ok hd, hrun, hdispatch, commit_next]

theorem cycle_of_decode_error {s : State} (hb : budgetSpent s = false) {e : Reject}
    (hd : decode s.cfg.opcodeMap s.prog s.pc = .error e) : cycle false s = .next (fetchFault s e) :=
  (cycle_of_no_host_stop s hb).trans (fetchAndRun_of_error s e hd)

theorem cycle_of_decode_ok {s : State} (hb : budgetSpent s = false) {i : Instr}
    (hd : decode s.cfg.opcodeMap s.prog s.pc = .ok i) : cycle false s = runInstr i s :=
  (cycle_of_no_host_stop s hb).trans (fetchAndRun_of_ok s i hd)

/-- The converse of `cycle_cases`: each case of `Cycles` is what the cycle answers. -/
theorem Cycles.cycle_eq {s t : State} {abort : Bool} (h : Cycles s abort t) (hrun : s.run = .running)
    (hnodup : s.cfg.opcodeMap.values.Nodup) : cycle abort (sampleHost s) = .next t := by
  obtain ⟨hnone, hunknown, hmissing, -⟩ := decoderIsTheRuleOfThePrograms s.cfg.opcodeMap s.prog s.pc hnodup
  cases h with
  | cancelled ha => rw [ha]; exact cycle_of_abort (sampleHost s)
  | budget ha b hb hs => rw [ha]; exact cycle_of_budgetSpent (sampleHost s) ((budgetSpent_iff s).mpr ⟨b, hb, hs⟩)
  | noCell ha hb h => rw [ha]; exact cycle_of_decode_error (s := sampleHost s) hb (hnone h)
  | unknown ha hb op h0 hop h => rw [ha]; exact cycle_of_decode_error (s := sampleHost s) hb (hunknown op h0 hop h)
  | missing ha hb k h0 hop h => rw [ha]; exact cycle_of_decode_error (s := sampleHost s) hb (hmissing k h0 hop h)
  | raises ha hb i hd k info hr =>
    rw [ha]
    exact (cycle_of_decode_ok (s := sampleHost s) hb hd).trans (runInstr_of_raises hr)
  | completes ha hb i hd u hc =>
    rw [ha]
    exact (cycle_of_decode_ok (s := sampleHost s) hb hd).trans (runInstr_of_completes hrun hc)

end Sys2Proof.Machine
end

section
/-! The obligations on what completing instructions do (10_state.md R23, R25; 41_stack.md R101; 45_loadstore.md R141;
44_branch.md R134), each read off the cases of `Completes` or off the instructions' effects. -/

namespace Sys2Proof.Machine

/-! ### PUSH then POP, STORE then LOAD -/

/-- Settles O33: the effects of PUSH (O31) and POP (O32), one after the other. -/
theorem pushThenPopRestoresTheStack : Obligations.PushThenPopRestoresTheStack := by
  rintro v s ⟨hlo, -⟩ hroom
  obtain ⟨-, hpush, -⟩ := pushEffect v s
  obtain ⟨t, het, hlive, -, hsp, -, -, ht⟩ := hpush hlo hroom
  obtain ⟨-, hpop, -⟩ := popEffect t
  obtain ⟨heu, hbelow⟩ := hpop (liveStack s) v hlive
  have hrun : t.run = s.run := by rw [ht]
  exact ⟨t, _, het, hrun, heu, hrun, by simp [hsp], hbelow⟩

/-- Settles O40: the effects of STORE (O39) and LOAD (O38), one after the other. -/
theorem storeThenLoadRestoresTheStack : Obligations.StoreThenLoadRestoresTheStack := by
  rintro addr v below s ⟨hlo, hhi⟩ h0 hcap hlive
  obtain ⟨hsp, -⟩ := liveStack_snoc s below v hlive
  obtain ⟨-, hstore, -⟩ := storeEffect addr s
  obtain ⟨t, het, ht, hbelow, hread, -⟩ := hstore below v h0 hcap hlive
  have hcfg : t.cfg = s.cfg := by rw [ht]
  have hsp' : t.sp = s.sp - 1 := by rw [ht]
  have hrun : t.run = s.run := by rw [ht]
  obtain ⟨-, hload, -⟩ := loadEffect addr t
  obtain ⟨u, heu, hlive', -, hspu, -, -, hu⟩ := hload h0 (by rwa [hcfg]) (by omega) (by rw [hcfg]; omega)
  have hrun' : u.run = t.run := by rw [hu]
  rw [dataIndex] at hread
  exact ⟨t, u, het, hrun, heu, hrun'.trans hrun, by rw [hlive', hbelow, hread], by omega⟩

/-! ### R23's table, and where pc goes -/

/-- A dispatch that does not end Faulted is a completion. -/
theorem completes_of_exec {s t : State} {i : Instr} (he : exec i s = .next t) (hok : t.run ≠ .faulted) :
    Completes s i t := by
  rcases exec_next_cases i s t he with hc | ⟨k, info, rfl, -⟩
  · exact hc
  · exact absurd rfl hok

/-- Settles O45: a completion pushes, drops, replaces two values or leaves the stack, and the other rows are of other
mnemonics. -/
theorem stackEffectTable : Obligations.StackEffectTable := by
  rintro i s t - ⟨hlo, -⟩ he hok
  cases completes_of_exec he hok with
  | push | load =>
    obtain ⟨-, hsp, hcells, -⟩ := stackStep_goto_push _ _ s hlo
    refine ⟨fun _ => ⟨hsp, hcells⟩, ?_, ?_, ?_⟩ <;> simp [Instr.mnemonic]
  | pop | print | store => refine ⟨?_, fun _ => ⟨rfl, fun _ => rfl⟩, ?_, ?_⟩ <;> simp [Instr.mnemonic]
  | alu i o r ho h ha =>
    obtain ⟨-, hsp, hcells, -⟩ := stackStep_goto_replaceTwo r (nextPc i.mnemonic s) s (by omega)
    rcases (aluOp_eq_some_iff i o).mp ho with ⟨rfl, -⟩ | ⟨rfl, -⟩ | ⟨rfl, -⟩ <;>
      refine ⟨?_, ?_, fun _ => ⟨hsp, hcells⟩, ?_⟩ <;> simp [Instr.mnemonic]
  | jmp | jmplt | jmpgt | jmpeq | halt =>
    refine ⟨?_, ?_, ?_, fun _ => ⟨rfl, fun _ => rfl⟩⟩ <;> simp [Instr.mnemonic]

/-- Settles O46: every completion sets pc to `nextPc`, but a JMP, and a conditional jump that is taken. -/
theorem pcGoesPastTheInstruction : Obligations.PcGoesPastTheInstruction := by
  intro i s t _ he hok
  cases completes_of_exec he hok with
  | push | pop | alu | print | load | store | halt => exact .inl rfl
  | jmp addr => exact .inr ⟨0, addr, .inl rfl, rfl⟩
  | jmplt val addr => exact (ite_eq_or_eq _ _ _).symm.imp_right fun h => ⟨val, addr, .inr (.inl rfl), h⟩
  | jmpgt val addr => exact (ite_eq_or_eq _ _ _).symm.imp_right fun h => ⟨val, addr, .inr (.inr (.inl rfl)), h⟩
  | jmpeq val addr => exact (ite_eq_or_eq _ _ _).symm.imp_right fun h => ⟨val, addr, .inr (.inr (.inr rfl)), h⟩

/-! ### A branch out of the program -/

/-- JMP, or a conditional jump whose comparison with the top holds: the instruction `i` branches to `addr`. -/
def Branches (s : State) (i : Instr) (addr : Int) : Prop :=
  i = .jmp addr ∨ ∃ (below : List Cell) (v val : Int), liveStack s = below ++ [v] ∧
    ((i = .jmplt val addr ∧ v < val) ∨ (i = .jmpgt val addr ∧ v > val) ∨ (i = .jmpeq val addr ∧ v = val))

/-- R130 to R133: such a branch completes and writes pc alone. -/
theorem Branches.completes {s : State} {i : Instr} {addr : Int} (h : Branches s i addr) :
    Completes s i (goto addr s) := by
  rcases h with rfl | ⟨below, v, val, hlive, hcond⟩
  · exact .jmp addr
  · obtain ⟨hsp, rfl, -⟩ := liveStack_snoc s below v hlive
    have hholds : holds 1 s := by rw [holds]; omega
    rcases hcond with ⟨rfl, htaken⟩ | ⟨rfl, htaken⟩ | ⟨rfl, htaken⟩
    · simpa only [if_pos ((taken_lt_iff _ _).mpr htaken)] using Completes.jmplt val addr hholds
    · simpa only [if_pos ((taken_gt_iff _ _).mpr htaken)] using Completes.jmpgt val addr hholds
    · simpa only [if_pos ((taken_eq_iff _ _).mpr htaken)] using Completes.jmpeq val addr hholds

/-- Settles O47: the branch completes by `Branches.completes`, and the next fetch finds no cell at its target. -/
theorem badTargetFaultsAtTheNextFetch : Obligations.BadTargetFaultsAtTheNextFetch := by
  intro s i addr hfree hd hbranch hout
  have hbranch' : Branches (dispatchState i s) i addr := hbranch
  refine ⟨_, hfree.step_of_completes hd hbranch'.completes, hfree.running, rfl, fun hfree' => ?_⟩
  exact ⟨_, hfree'.step_of_decode_error .noCell (decode_of_outside _ _ _ hout), rfl, rfl, rfl, rfl, rfl, rfl⟩

end Sys2Proof.Machine
end

section
/-! What a step does to the memory, the run state and the event log, and the obligations that say it (20_memory.md R48,
R54; 40_cycle.md R86, R88, R89; 46_halt.md R151). -/

namespace Sys2Proof.Machine

/-! ### What a completion writes beside pc, SP and the stack -/

/-- The events an instruction emits of its own, after its step's Trace (R120, R151). -/
def output (s : State) : Instr → List Event
  | .push _ => []
  | .pop => []
  | .add => []
  | .sub => []
  | .mul => []
  | .print => [.print (top s)]
  | .jmp _ => []
  | .jmplt _ _ => []
  | .jmpgt _ _ => []
  | .jmpeq _ _ => []
  | .load _ => []
  | .store _ => []
  | .halt => [.dump (memCells s)]

theorem output_of_aluOp {i : Instr} {o : AluOp} (ho : aluOp i = some o) (s : State) : output s i = [] := by
  rcases (aluOp_eq_some_iff i o).mp ho with ⟨rfl, -⟩ | ⟨rfl, -⟩ | ⟨rfl, -⟩ <;> rfl

theorem output_length_le_one (s : State) (i : Instr) : (output s i).length ≤ 1 := by cases i <;> simp [output]

theorem isTrace_of_mem_output {s : State} {i : Instr} {e : Event} (he : e ∈ output s i) : e.isTrace = false := by
  cases i <;> simp [output] at he <;> rw [he] <;> rfl

theorem Completes.events_eq {s t : State} {i : Instr} (h : Completes s i t) : t.events = s.events ++ output s i := by
  cases h with
  | alu i o r ho => rw [output_of_aluOp ho, List.append_nil]; rfl
  | print | halt => rfl
  | push | pop | jmp | jmplt | jmpgt | jmpeq | load | store => exact (List.append_nil _).symm

/-- R89: HALT alone leaves the run state. -/
theorem Completes.run_eq {s t : State} {i : Instr} (h : Completes s i t) :
    t.run = if i = .halt then .halted else s.run := by
  cases h with
  | alu i o r ho => rcases (aluOp_eq_some_iff i o).mp ho with ⟨rfl, -⟩ | ⟨rfl, -⟩ | ⟨rfl, -⟩ <;> rfl
  | _ => rfl

theorem Completes.run_eq_halted_iff {s t : State} {i : Instr} (h : Completes s i t) (hrun : s.run = .running) :
    t.run = .halted ↔ i = .halt := by
  rw [h.run_eq, hrun]
  split_ifs with hi <;> simp [hi]

/-- R54: STORE alone writes the memory. -/
theorem Completes.mem_eq_of_ne_store {s t : State} {i : Instr} (h : Completes s i t) (hi : ∀ addr, i ≠ .store addr) :
    t.mem = s.mem := by
  cases h with
  | store addr => exact absurd rfl (hi addr)
  | _ => rfl

/-- R141: what a completing STORE wrote, and where. -/
theorem Completes.of_store {s t : State} {addr : Int} (h : Completes s (.store addr) t) :
    validDataAddr s addr ∧ 0 ≤ s.sp ∧ t.mem = s.mem.write (dataIndex addr) (top s) ∧ t.run = s.run := by
  cases h with
  | alu _ o r ho => simp [aluOp] at ho
  | store _ hv h => exact ⟨hv, by omega, rfl, rfl⟩

/-- R54: a cell that reads otherwise after a completion is the one a STORE named, and holds the top. -/
theorem Completes.of_read_ne {s t : State} {i : Instr} {a : Nat} (h : Completes s i t)
    (hne : t.mem.read a ≠ s.mem.read a) :
    i = .store a ∧ a < s.cfg.memCap ∧ t.run = s.run ∧ t.mem.read a = top s := by
  by_cases hi : ∃ addr, i = .store addr
  · obtain ⟨addr, rfl⟩ := hi
    obtain ⟨⟨h0, hcap⟩, -, hmem, hrun⟩ := h.of_store
    rw [hmem, read_write] at hne ⊢
    obtain rfl : a = dataIndex addr := by_contra fun ha => hne (if_neg ha)
    have haddr : (dataIndex addr : Int) = addr := Int.toNat_of_nonneg h0
    exact ⟨by rw [haddr], by omega, hrun, if_pos rfl⟩
  · exact absurd (by rw [h.mem_eq_of_ne_store fun addr hst => hi ⟨addr, hst⟩]) hne

/-! ### The obligations on halting, memory and log -/

theorem steps_lt_of_budgetSpent_eq_false {s : State} (hb : budgetSpent s = false) (b : Nat)
    (hbudget : s.cfg.stepBudget = some b) : s.steps < b :=
  not_le.mp fun hle => Bool.eq_false_iff.mp hb ((budgetSpent_iff s).mpr ⟨b, hbudget, hle⟩)

/-- Settles O25: among the cases of a step only a completion can end Halted, and then it is HALT's. -/
theorem onlyHaltHalts : Obligations.OnlyHaltHalts := by
  intro s t hrun hstep
  constructor
  · intro hhalted
    obtain ⟨hadm, ⟨-, rfl⟩ | ⟨-, hidle, -⟩ | ⟨hreset, -, hsp, hc⟩⟩ := step_cases s t hstep
    · simp at hhalted
    · exact absurd hrun hidle
    · cases hc with
      | completes ha hb i hd u hu =>
        obtain rfl : i = .halt := (hu.run_eq_halted_iff hrun).mp hhalted
        exact ⟨⟨⟨hadm, hreset, hrun, hsp⟩, ha, steps_lt_of_budgetSpent_eq_false hb⟩, hd⟩
      | _ => simp at hhalted
  · rintro ⟨hfree, hd⟩
    rw [hfree.step_of_completes hd .halt] at hstep
    cases hstep
    rfl

/-- Settles O27: of the cases of a step only a completion can write the memory, and then by `Completes.of_read_ne`. -/
theorem onlyStoreWritesMemory : Obligations.OnlyStoreWritesMemory := by
  intro s t a hreset hstep hne
  obtain ⟨-, ⟨hreset', -⟩ | ⟨-, -, rfl⟩ | ⟨-, hrun, -, hc⟩⟩ := step_cases s t hstep
  · simp [hreset] at hreset'
  · exact absurd rfl hne
  · cases hc with
    | completes ha hb i hd u hu =>
      obtain ⟨rfl, hcap, hkeep, hread⟩ := hu.of_read_ne hne
      exact ⟨hd, hcap, hkeep.trans hrun, hread⟩
    | _ => exact absurd rfl hne

/-- Settles O28: a fault before dispatch appends nothing, one in dispatch the Trace, a completion the Trace and its
`output`. -/
theorem logOnlyGrows : Obligations.LogOnlyGrows := by
  intro s t hreset hstep
  obtain ⟨-, ⟨hreset', -⟩ | ⟨-, -, rfl⟩ | ⟨-, -, -, hc⟩⟩ := step_cases s t hstep
  · simp [hreset] at hreset'
  · exact .inl rfl
  · cases hc with
    | raises ha hb i hd k info hr => exact .inr ⟨i, hd, [], by simp, by simp, (List.append_nil _).symm⟩
    | completes ha hb i hd u hu =>
      exact .inr ⟨i, hd, output (dispatchState i s) i, output_length_le_one _ i, fun e => isTrace_of_mem_output,
        hu.events_eq⟩
    | _ => exact .inl rfl

end Sys2Proof.Machine
end

section
/-! The invariant of the log's account (20_memory.md R48, 40_cycle.md R86, R88, R89, R92): each event a step appends
tells of the store the step made, if any, and counts as the step does. -/

namespace Sys2Proof.Machine

/-! ### The last store of a longer log -/

theorem lastStored_append_of_none (cfg : Config) (a : Nat) (es : List Event) {e : Event} (h : storeOf cfg e = none) :
    lastStored cfg a (es ++ [e]) = lastStored cfg a es := by
  simp [lastStored, h]

theorem lastStored_append_of_some (cfg : Config) (a : Nat) (es : List Event) {e : Event} {b : Nat} {v : Cell}
    (h : storeOf cfg e = some (b, v)) :
    lastStored cfg a (es ++ [e]) = if b = a then v else lastStored cfg a es := by
  simp [lastStored, h]

/-- An instruction's own events tell of no store. -/
theorem lastStored_append_output (cfg : Config) (a : Nat) (es : List Event) (s : State) (i : Instr) :
    lastStored cfg a (es ++ output s i) = lastStored cfg a es := by
  cases i with
  | print | halt => exact lastStored_append_of_none cfg a es rfl
  | _ => exact congrArg (lastStored cfg a) (List.append_nil es)

/-! ### The store a Trace tells of -/

theorem storeOf_of_opcode_ne (cfg : Config) (pc op : Cell) (stack : List Cell) (h : op ≠ cfg.opcodeMap.store) :
    ∀ operands : List Cell, storeOf cfg (.trace pc op operands stack) = none
  | [] => rfl
  | [_] => if_neg fun ⟨hop, _⟩ => h hop
  | _ :: _ :: _ => rfl

/-- The Trace of another instruction tells of none: its opcode is not STORE's (R63). -/
theorem storeOf_traceOf_of_ne_store {s : State} (hnodup : s.cfg.opcodeMap.values.Nodup) {i : Instr}
    (hi : ∀ addr, i ≠ .store addr) : storeOf s.cfg (traceOf i s) = none := by
  refine storeOf_of_opcode_ne s.cfg _ _ _ (fun hop => ?_) _
  have hk : i.mnemonic = .store := value_injective s.cfg.opcodeMap hnodup _ .store hop
  cases i with
  | store addr => exact hi addr rfl
  | _ => simp [Instr.mnemonic] at hk

/-- The Trace of a STORE tells of what it stores, if it stores (R86, R141). -/
theorem storeOf_traceOf_store (s : State) (addr : Int) : storeOf s.cfg (traceOf (.store addr) s) =
    if validDataAddr s addr ∧ 0 ≤ s.sp then some (dataIndex addr, top s) else none := by
  have hwhole : storeOf s.cfg (traceOf (.store addr) s) =
      if validDataAddr s addr then (liveStack s).getLast?.map (fun v => (dataIndex addr, v)) else none :=
    if_congr (by simp [Instr.mnemonic, OpcodeMap.value]) rfl rfl
  by_cases hv : validDataAddr s addr
  · rw [hwhole, if_pos hv, liveStack_getLast?, apply_ite (Option.map _)]
    exact if_congr (and_iff_right hv).symm rfl rfl
  · rw [hwhole, if_neg hv, if_neg fun ⟨hv', _⟩ => hv hv']

/-- The Trace of an instruction that raises tells of none: a STORE raises for a bad address or an empty stack. -/
theorem Raises.storeOf_traceOf {s : State} {i : Instr} {k : FaultKind} {x : Int} (h : Raises s i k x)
    (hnodup : s.cfg.opcodeMap.values.Nodup) : storeOf s.cfg (traceOf i s) = none := by
  by_cases hi : ∀ addr, i ≠ .store addr
  · exact storeOf_traceOf_of_ne_store hnodup hi
  · push Not at hi
    obtain ⟨addr, rfl⟩ := hi
    rw [storeOf_traceOf_store]
    refine if_neg fun ⟨hv, hsp⟩ => ?_
    cases h with
    | storeAddr _ hbad => exact hbad hv
    | underflow _ _ hempty _ => exact hempty (by simp only [holds, needs]; omega)
    | arith _ o _ ho => simp [aluOp] at ho

/-! ### What each event counts for -/

theorem countP_isTrace_output (s : State) (i : Instr) : (output s i).countP Event.isTrace = 0 :=
  List.countP_eq_zero.mpr fun _ he => by simp [isTrace_of_mem_output he]

theorem countP_isDump_output (s : State) (i : Instr) :
    (output s i).countP Event.isDump = if i = .halt then 1 else 0 := by
  cases i <;> rfl

/-! ### The steps -/

theorem State.LogInv.sampleHost {s : State} (h : s.LogInv) : (sampleHost s).LogInv :=
  ⟨h.memIsLastStore, h.traceCount, h.dumpCount, h.dumpLast⟩

theorem logInv_boot (cfg : Config) (prog : List Cell) (inputs : List HostInput) :
    (State.boot cfg prog inputs).LogInv :=
  ⟨fun _ => rfl, rfl, rfl, by simp⟩

/-- A fault before dispatch appends nothing and counts nothing. -/
theorem State.LogInv.raise {s : State} (h : s.LogInv) (hrun : s.run = .running) {k : FaultKind}
    (hk : k.isDispatch = false) (op : Option Cell) (x : Int) : (raise k op x s).LogInv where
  memIsLastStore := h.memIsLastStore
  traceCount := by simpa [hrun, hk] using h.traceCount
  dumpCount := by simpa [hrun] using h.dumpCount
  dumpLast := by simp

/-- A fault of dispatch appends its Trace, which counts for no completed step. -/
theorem State.LogInv.dispatchFault {s : State} (h : s.LogInv) (hrun : s.run = .running)
    (hnodup : s.cfg.opcodeMap.values.Nodup) {i : Instr} {k : FaultKind} {x : Int}
    (hr : Raises (dispatchState i s) i k x) : (dispatchFault i.mnemonic k x (dispatchState i s)).LogInv where
  memIsLastStore a :=
    (h.memIsLastStore a).trans (lastStored_append_of_none s.cfg a s.events (hr.storeOf_traceOf hnodup)).symm
  traceCount := by
    have hcount : s.events.countP Event.isTrace = s.steps := by simpa [hrun] using h.traceCount
    simp [dispatchState, traceOf, Event.isTrace, hr.kind_isDispatch, hcount]
  dumpCount := by
    have hcount : s.events.countP Event.isDump = 0 := by simpa [hrun] using h.dumpCount
    simpa [dispatchState, traceOf, Event.isDump] using hcount
  dumpLast := by simp

theorem Completes.events_of_dispatchState {s t : State} {i : Instr} (h : Completes (dispatchState i s) i t) :
    t.events = s.events ++ [traceOf i s] ++ output (dispatchState i s) i := h.events_eq

/-- R48: after a completion too every cell reads as the last store the log tells of. -/
theorem Completes.read_eq_lastStored {s t : State} {i : Instr} (h : Completes (dispatchState i s) i t)
    (hnodup : s.cfg.opcodeMap.values.Nodup) (hlog : ∀ a, s.mem.read a = lastStored s.cfg a s.events) (a : Nat) :
    t.mem.read a = lastStored t.cfg a t.events := by
  have hcfg : t.cfg = s.cfg := h.frame.1
  rw [hcfg, h.events_of_dispatchState, lastStored_append_output]
  by_cases hi : ∀ addr, i ≠ .store addr
  · rw [lastStored_append_of_none _ _ _ (storeOf_traceOf_of_ne_store hnodup hi), h.mem_eq_of_ne_store hi]
    exact hlog a
  · push Not at hi
    obtain ⟨addr, rfl⟩ := hi
    obtain ⟨hv, hsp, hmem, -⟩ := h.of_store
    have hstore : storeOf s.cfg (traceOf (.store addr) s) = some (dataIndex addr, top s) :=
      (storeOf_traceOf_store s addr).trans (if_pos ⟨hv, hsp⟩)
    rw [lastStored_append_of_some _ _ _ hstore, hmem, read_write]
    exact if_congr eq_comm rfl (hlog a)

/-- R151: HALT leaves the memory it dumped. -/
theorem Completes.getLast?_events_of_halt {s t : State} (h : Completes s .halt t) :
    t.events.getLast? = some (.dump (memCells t)) := by
  cases h with
  | alu _ o _ ho => simp [aluOp] at ho
  | halt => exact List.getLast?_concat

/-- A completion appends its Trace and its output: the Trace counts for its step, and HALT's Dump for its halt. -/
theorem State.LogInv.completes {s t : State} (h : s.LogInv) (hrun : s.run = .running)
    (hnodup : s.cfg.opcodeMap.values.Nodup) {i : Instr} (hc : Completes (dispatchState i s) i t) :
    (countStep t).LogInv := by
  have hhalted : t.run = .halted ↔ i = .halt := hc.run_eq_halted_iff hrun
  obtain ⟨-, -, -, -, -, -, hsteps, -⟩ := hc.frame
  refine ⟨hc.read_eq_lastStored hnodup h.memIsLastStore, ?_, ?_, fun hlast => ?_⟩
  · have hcount : s.events.countP Event.isTrace = s.steps := by simpa [hrun] using h.traceCount
    rw [countStep_events, hc.events_of_dispatchState, List.countP_append, List.countP_append, hcount,
      countP_isTrace_output, countStep_steps, hsteps, countStep_run, if_neg (by simp [hc.run_ne_faulted hrun])]
    rfl
  · have hcount : s.events.countP Event.isDump = 0 := by simpa [hrun] using h.dumpCount
    rw [countStep_events, hc.events_of_dispatchState, List.countP_append, List.countP_append, hcount,
      countP_isDump_output, countStep_run, if_congr hhalted rfl rfl]
    exact Nat.zero_add _
  · obtain rfl : i = .halt := hhalted.mp hlast
    exact hc.getLast?_events_of_halt

/-- Settles O7: by the cases of a step. -/
theorem stepKeepsLogAccount : Obligations.StepKeepsLogAccount := by
  intro s t h hstep
  obtain ⟨hadm, ⟨-, rfl⟩ | ⟨-, -, rfl⟩ | ⟨-, hrun, -, hc⟩⟩ := step_cases s t hstep
  · exact logInv_boot s.cfg s.prog s.hostIn.tail
  · exact h.sampleHost
  · have hnodup := values_nodup_of_admissible hadm
    cases hc with
    | cancelled | budget | noCell | unknown | missing => exact h.sampleHost.raise hrun rfl _ _
    | raises ha hb i hd k info hr => exact h.dispatchFault hrun hnodup hr
    | completes ha hb i hd u hu => exact h.completes hrun hnodup hu

end Sys2Proof.Machine
end

section
/-! The invariant of the legal states (10_state.md R21 to R32, 40_cycle.md R92): reset meets it, each operation keeps it
under the operation's own condition, and so each step does. -/

namespace Sys2Proof.Machine

/-! ### Values that fit a cell -/

/-- R7: the addresses 0 to PROG_LEN are W-bit values. -/
theorem fitsW_of_le_length {c : Config} {n : Nat} (h : c.Admissible n) {x : Int} (h0 : 0 ≤ x) (hx : x ≤ n) :
    fitsW c.W x := by
  obtain ⟨-, -, -, hlen, -⟩ := h
  simp only [fitsW, cellMin, cellMax]
  omega

theorem one_le_W_of_admissible {c : Config} {n : Nat} (h : c.Admissible n) : 1 ≤ c.W := by
  obtain ⟨hW, -⟩ := h
  omega

theorem State.Inv.stackCell_fits {s : State} (h : s.Inv) (i : Nat) : fitsW s.cfg.W (stackCell s i) := by
  unfold stackCell
  cases hf : CellMap.find i s.stack with
  | none => exact wrapW_fits s.cfg.W _ (one_le_W_of_admissible h.admissible)
  | some v => exact (h.stackFits _ (mem_of_find i v s.stack hf)).2

theorem State.Inv.read_fits {s : State} (h : s.Inv) (a : Nat) : fitsW s.cfg.W (s.mem.read a) := by
  rcases read_cases s.mem a with h0 | hmem
  · rw [h0]
    exact fitsW_of_le_length h.admissible le_rfl (Int.natCast_nonneg _)
  · exact (h.memFits _ hmem).2

/-- The ALU answers W-bit values. -/
theorem fits_of_alu_eq_ok {c : Config} {o : AluOp} {a b r : Cell} (hW : 1 ≤ c.W) (h : alu c o a b = .ok r) :
    fitsW c.W r := by
  by_cases hfit : fitsW c.W (o.exact a b)
  · rw [alu_of_fits c o a b hfit] at h
    cases h
    exact hfit
  · cases hp : c.overflowPolicy with
    | wrap =>
      rw [alu_of_wrap c o a b hfit hp] at h
      cases h
      exact wrapW_fits c.W _ hW
    | fault => simp [alu_of_fault c o a b hfit hp] at h

/-! ### The operations keep the invariant -/

theorem inv_boot {cfg : Config} {prog : List Cell} (inputs : List HostInput) (hadm : cfg.Admissible prog.length)
    (hprog : ∀ c ∈ prog, fitsW cfg.W c) : (State.boot cfg prog inputs).Inv where
  admissible := hadm
  progFits := hprog
  pcFits := fitsW_of_le_length hadm le_rfl (Int.natCast_nonneg _)
  spInRange := ⟨le_rfl, by simp only [boot_sp, boot_cfg]; omega⟩
  stackRising := List.Pairwise.nil
  stackFits := by simp
  liveWritten i hi := by rw [boot_sp] at hi; omega
  memWf := ⟨List.Pairwise.nil, by simp⟩
  memFits := by simp
  recordKind := by simp
  recordClear _ := ⟨rfl, rfl, rfl⟩
  budget _ _ := Nat.zero_le _

section
variable {s : State} (h : s.Inv)
include h

theorem State.Inv.sampleHost : (sampleHost s).Inv := { h with }

theorem State.Inv.emit (e : Event) : (emit e s).Inv := { h with }

theorem State.Inv.goto {target : Int} (hx : fitsW s.cfg.W target) : (goto target s).Inv := { h with pcFits := hx }

theorem State.Inv.halt (hrun : s.run = .running) : (halt s).Inv :=
  { h with recordKind := by simpa [hrun] using h.recordKind }

theorem State.Inv.countStep (hb : ∀ b, s.cfg.stepBudget = some b → s.steps < b) : (countStep s).Inv :=
  { h with budget := hb }

theorem State.Inv.raise {k : FaultKind} (hk : k ≠ .none) (op : Option Cell) (x : Int) : (raise k op x s).Inv :=
  { h with recordKind := by simp [hk], recordClear := fun hnone => absurd hnone hk }

theorem State.Inv.stackWrite {i : Nat} {v : Cell} (hi : i < s.cfg.stackCap) (hv : fitsW s.cfg.W v) :
    (stackWrite i v s).Inv :=
  { h with
    stackRising := rising_insert i v s.stack h.stackRising
    stackFits := by
      intro e he
      rcases mem_insert i v s.stack e he with rfl | he
      · exact ⟨hi, hv⟩
      · exact h.stackFits e he
    liveWritten := by
      intro j hj
      rw [stackWrite_stack, find_insert]
      split_ifs
      · rfl
      · exact h.liveWritten j hj }

theorem State.Inv.setSp {x : Int} (hlo : -1 ≤ x) (hhi : x ≤ (s.cfg.stackCap : Int) - 1)
    (hlive : ∀ i : Nat, (i : Int) ≤ x → (CellMap.find i s.stack).isSome) : (setSp x s).Inv :=
  { h with spInRange := ⟨hlo, hhi⟩, liveWritten := hlive }

theorem State.Inv.memWrite {a : Nat} {v : Cell} (ha : a < s.cfg.memCap) (hv : fitsW s.cfg.W v) :
    (memWrite a v s).Inv :=
  { h with
    memWf := write_wf s.mem a v h.memWf
    memFits := by
      intro e he
      rcases mem_write s.mem a v e he with rfl | he
      · exact ⟨ha, hv⟩
      · exact h.memFits e he }

theorem State.Inv.push {v : Cell} (hroom : hasRoom s) (hv : fitsW s.cfg.W v) : (push v s).Inv := by
  obtain ⟨hlo, hhi⟩ := h.spInRange
  refine (h.stackWrite (by omega) hv).setSp (by omega) (by simp only [stackWrite_cfg]; omega) fun i hi => ?_
  rw [stackWrite_stack, find_insert]
  split_ifs with heq
  · rfl
  · exact h.liveWritten i (by omega)

theorem State.Inv.drop (hone : holds 1 s) : (drop s).Inv := by
  obtain ⟨hlo, hhi⟩ := h.spInRange
  exact h.setSp (by omega) (by omega) fun i hi => h.liveWritten i (by omega)

theorem State.Inv.replaceTwo {r : Cell} (htwo : holds 2 s) (hr : fitsW s.cfg.W r) : (replaceTwo r s).Inv := by
  obtain ⟨hlo, hhi⟩ := h.spInRange
  have hwrite := h.stackWrite (i := (s.sp - 1).toNat) (by omega) hr
  exact hwrite.setSp (by omega) (by simp only [stackWrite_cfg]; omega) fun i hi =>
    hwrite.liveWritten i (by rw [stackWrite_sp]; omega)

/-- A completion keeps the invariant: its values come from W-bit cells, its address from a W-bit operand or from the
program's length. -/
theorem State.Inv.completes (hrun : s.run = .running) {i : Instr} {t : State} (hc : Completes s i t)
    (hwf : i.WellFormed s.cfg.W) (hnext : fitsW s.cfg.W (nextPc i.mnemonic s)) : t.Inv := by
  cases hc with
  | push v hroom => exact (h.push hroom hwf).goto hnext
  | pop hone => exact (h.drop hone).goto hnext
  | alu i o r ho htwo ha =>
    exact (h.replaceTwo htwo (fits_of_alu_eq_ok (one_le_W_of_admissible h.admissible) ha)).goto hnext
  | print hone => exact ((h.drop hone).emit _).goto hnext
  | jmp addr => exact h.goto hwf
  | jmplt val addr | jmpgt val addr | jmpeq val addr =>
    obtain ⟨-, haddr⟩ := hwf
    refine h.goto ?_
    split_ifs
    · exact haddr
    · exact hnext
  | load addr hv hroom => exact (h.push hroom (h.read_fits _)).goto hnext
  | store addr hv hone =>
    exact ((h.drop hone).memWrite (by simp only [dataIndex, drop_cfg]; omega) (h.stackCell_fits _)).goto hnext
  | halt => exact ((h.goto hnext).halt hrun).emit _

end

/-- Settles O6: by the cases of a step; a decoded instruction is well-formed (O14) and ends inside the program. -/
theorem stepKeepsLegalStates : Obligations.StepKeepsLegalStates := by
  intro s t h hstep
  obtain ⟨hadm, ⟨-, rfl⟩ | ⟨-, -, rfl⟩ | ⟨-, hrun, -, hc⟩⟩ := step_cases s t hstep
  · exact inv_boot s.hostIn.tail hadm h.progFits
  · exact h.sampleHost
  · cases hc with
    | cancelled | budget | noCell | unknown | missing => exact h.sampleHost.raise (by simp) _ _
    | raises ha hb i hd k info hr => exact (h.sampleHost.emit _).raise hr.kind_ne_none _ _
    | completes ha hb i hd u hu =>
      have hwf : i.WellFormed s.cfg.W := decodedInstructionsAreWellFormed _ _ _ _ i h.progFits hd
      obtain ⟨h0, hend, -⟩ := of_decode_eq_ok hd
      have hnext : fitsW s.cfg.W (nextPc i.mnemonic s) :=
        fitsW_of_le_length hadm (by rw [nextPc]; omega) (by rw [nextPc]; omega)
      have hu_inv : u.Inv := (h.sampleHost.emit _).completes hrun hu hwf hnext
      obtain ⟨hcfg, -, -, -, -, -, hsteps, -⟩ := hu.frame
      exact hu_inv.countStep (by rw [hcfg, hsteps]; exact steps_lt_of_budgetSpent_eq_false hb)

/-- Settles O5: `inv_boot` and `logInv_boot`. -/
theorem bootStateIsLegal : Obligations.BootStateIsLegal := fun cfg prog inputs hadm hprog =>
  ⟨inv_boot inputs hadm hprog, logInv_boot cfg prog inputs⟩

/-- Settles O4: the default configuration is admitted with no program, so O5 applies. -/
theorem resetStateIsLegal : Obligations.ResetStateIsLegal :=
  bootStateIsLegal Config.default [] [] (by decide) (by simp)

/-- Settles O8: a legal state is admitted and has SP in range. -/
theorem legalStatesNeverStop : Obligations.LegalStatesNeverStop := fun s h =>
  step_total s h.admissible fun _ _ => h.spInRange

/-! ### Runs -/

/-- An invariant of the states and the number of boundaries behind them, that every step keeps and under which no step
stops, holds along every run. -/
theorem run_of_step {P : Nat → State → Prop} (hP : ∀ n s, P n s → ∃ t, step s = .next t ∧ P (n + 1) t) :
    ∀ (k n : Nat) (s : State), P n s → ∃ t, Sys2Proof.core.run k s = .next t ∧ P (n + k) t
  | 0, _, s, h => ⟨s, rfl, h⟩
  | k + 1, n, s, h => by
    obtain ⟨t, hstep, ht⟩ := hP n s h
    obtain ⟨u, hrun, hu⟩ := run_of_step hP k (n + 1) t ht
    exact ⟨u, (core_run_succ s t k hstep).trans hrun, by rwa [Nat.add_right_comm, Nat.add_assoc] at hu⟩

/-- Settles O9: a legal state steps (O8), to a legal state (O6) with its log's account kept (O7). -/
theorem everyRunIsLegal : Obligations.EveryRunIsLegal := by
  intro cfg prog inputs hadm hprog k
  refine run_of_step (P := fun _ s => s.Inv ∧ s.LogInv) (fun _ s ⟨hinv, hlog⟩ => ?_) k 0 _
    (bootStateIsLegal cfg prog inputs hadm hprog)
  obtain ⟨t, ht⟩ := legalStatesNeverStop s hinv
  exact ⟨t, ht, stepKeepsLegalStates s t hinv ht, stepKeepsLogAccount s t hlog ht⟩

/-- R168: what holds after `n` boundaries of a run with budget `b` and no reset: while Running every boundary has
completed an instruction, and never more than `b` have. -/
structure WithinBudget (b n : Nat) (s : State) : Prop where
  admissible : s.cfg.Admissible s.prog.length
  budget     : s.cfg.stepBudget = some b
  noReset    : ∀ h ∈ s.hostIn, h.reset = false
  spInRange  : spInRange s
  stepsLe    : s.steps ≤ b
  stepsEq    : s.run = .running → s.steps = n

theorem hostLines_reset_eq_false {s : State} (h : ∀ x ∈ s.hostIn, x.reset = false) : (hostLines s).reset = false := by
  rw [hostLines]
  cases hin : s.hostIn with
  | nil => rfl
  | cons x xs => exact h x (by simp [hin])


theorem Cycles.spInRange {s t : State} {abort : Bool} (h : Cycles s abort t) (hsp : spInRange s) : spInRange t := by
  cases h with
  | completes ha hb i hd u hc => exact hc.spInRange (s := dispatchState i s) hsp
  | _ => exact hsp

/-- R88, R168: a step faults uncounted, or is counted within the budget. -/
theorem Cycles.steps_cases {s t : State} {abort : Bool} (h : Cycles s abort t) :
    (t.run = .faulted ∧ t.steps = s.steps) ∨ (budgetSpent s = false ∧ t.steps = s.steps + 1) := by
  cases h with
  | completes ha hb i hd u hc =>
    obtain ⟨-, -, -, -, -, -, hsteps, -⟩ := hc.frame
    exact .inr ⟨hb, congrArg (· + 1) hsteps⟩
  | _ => exact .inl ⟨rfl, rfl⟩

theorem WithinBudget.step {b n : Nat} {s : State} (h : WithinBudget b n s) :
    ∃ t, step s = .next t ∧ WithinBudget b (n + 1) t := by
  obtain ⟨t, ht⟩ := step_total s h.admissible fun _ _ => h.spInRange
  refine ⟨t, ht, ?_⟩
  have htail : ∀ x ∈ s.hostIn.tail, x.reset = false := fun x hx => h.noReset x (List.mem_of_mem_tail hx)
  obtain ⟨-, ⟨hreset, -⟩ | ⟨-, hidle, rfl⟩ | ⟨-, hrun, hsp, hc⟩⟩ := step_cases s t ht
  · simp [hostLines_reset_eq_false h.noReset] at hreset
  · exact { h with noReset := htail, stepsEq := fun hrun => absurd hrun hidle }
  · obtain ⟨hcfg, hprog, hhost⟩ := hc.frame
    have hsteps : t.steps ≤ b ∧ (t.run = .running → t.steps = n + 1) := by
      rcases hc.steps_cases with ⟨hfault, heq⟩ | ⟨hspent, heq⟩
      · exact ⟨heq ▸ h.stepsLe, fun hrunning => by simp [hfault] at hrunning⟩
      · exact ⟨heq ▸ steps_lt_of_budgetSpent_eq_false hspent b h.budget, fun _ => heq.trans (by rw [h.stepsEq hrun])⟩
    obtain ⟨hle, heq⟩ := hsteps
    exact ⟨by rw [hcfg, hprog]; exact h.admissible, by rw [hcfg]; exact h.budget, by rw [hhost]; exact htail,
      hc.spInRange hsp, hle, heq⟩

/-- Settles O10: a core still Running after `b + 1` boundaries would have completed `b + 1` instructions. -/
theorem budgetEndsEveryRun : Obligations.BudgetEndsEveryRun := by
  intro cfg prog inputs b hadm hbudget hreset
  have hboot : WithinBudget b 0 (State.boot cfg prog inputs) :=
    ⟨hadm, hbudget, hreset, ⟨le_rfl, by simp only [boot_sp, boot_cfg]; omega⟩, Nat.zero_le b, fun _ => rfl⟩
  obtain ⟨t, hrun, ht⟩ := run_of_step (fun _ _ h => WithinBudget.step h) (b + 1) 0 _ hboot
  refine ⟨t, hrun, fun hrunning => ?_, ht.stepsLe⟩
  have hle := ht.stepsLe
  have heq := ht.stepsEq hrunning
  omega

end Sys2Proof.Machine
end

section
/-! The noninterference obligations (10_state.md R24, 60_exceptions.md R179). Nothing before dispatch reads the stack or
the log, so a step is simulated by a core that differs from the first in these alone, if its dispatch is. -/

namespace Sys2Proof.Machine

/-! ### Simulation of a step by that of its dispatch -/

/-- A relation that idle boundaries and faults keep, and that dispatch from `s` and from `s'` lead to. -/
structure DispatchSimulates (R : State → State → Prop) (s s' : State) : Prop where
  idle      : R (sampleHost s) (sampleHost s')
  stops     : ∀ k op x, R (raise k op x (sampleHost s)) (raise k op x (sampleHost s'))
  raises    : ∀ i k x, Raises (dispatchState i s) i k x → Raises (dispatchState i s') i k x ∧
    R (dispatchFault i.mnemonic k x (dispatchState i s)) (dispatchFault i.mnemonic k x (dispatchState i s'))
  completes : spInRange s → ∀ i t, Completes (dispatchState i s) i t →
    ∃ t', Completes (dispatchState i s') i t' ∧ R (countStep t) (countStep t')

/-- The state with another stack and another log. -/
def withStackAndLog (st : CellMap) (es : List Event) (s : State) : State := { s with stack := st, events := es }

theorem DispatchSimulates.cycles {R : State → State → Prop} {s : State} {st : CellMap} {es : List Event}
    (h : DispatchSimulates R s (withStackAndLog st es s)) (hsp : spInRange s) {abort : Bool} {t : State}
    (hc : Cycles s abort t) : ∃ t', Cycles (withStackAndLog st es s) abort t' ∧ R t t' := by
  cases hc with
  | cancelled ha => exact ⟨_, .cancelled ha, h.stops _ _ _⟩
  | budget ha b hb hs => exact ⟨_, .budget ha b hb hs, h.stops _ _ _⟩
  | noCell ha hb hpc => exact ⟨_, .noCell ha hb hpc, h.stops _ _ _⟩
  | unknown ha hb op h0 hop hno =>
    exact ⟨_, Cycles.unknown (s := withStackAndLog st es s) ha hb op h0 hop hno, h.stops _ _ _⟩
  | missing ha hb k h0 hop hend =>
    exact ⟨_, Cycles.missing (s := withStackAndLog st es s) ha hb k h0 hop hend, h.stops _ _ _⟩
  | raises ha hb i hd k x hr =>
    obtain ⟨hr', hR⟩ := h.raises i k x hr
    exact ⟨_, Cycles.raises (s := withStackAndLog st es s) ha hb i hd k x hr', hR⟩
  | completes ha hb i hd u hu =>
    obtain ⟨u', hu', hR⟩ := h.completes hsp i u hu
    exact ⟨_, Cycles.completes (s := withStackAndLog st es s) ha hb i hd u' hu', hR⟩

/-- A step is simulated by a core that differs in its stack and its log alone. -/
theorem DispatchSimulates.step {R : State → State → Prop} {s t : State} {st : CellMap} {es : List Event}
    (h : DispatchSimulates R s (withStackAndLog st es s)) (hrefl : ∀ x, R x x) (hstep : step s = .next t) :
    ∃ t', step (withStackAndLog st es s) = .next t' ∧ R t t' := by
  obtain ⟨hadm, ⟨hreset, rfl⟩ | ⟨hreset, hstop, rfl⟩ | ⟨hreset, hrun, hsp, hc⟩⟩ := step_cases s t hstep
  · exact ⟨_, step_reset (withStackAndLog st es s) hadm hreset, hrefl _⟩
  · exact ⟨_, step_idle (withStackAndLog st es s) hadm hreset hstop, h.idle⟩
  · obtain ⟨t', hc', hR⟩ := h.cycles hsp hc
    refine ⟨t', ?_, hR⟩
    exact (step_cycle (withStackAndLog st es s) hadm hreset hrun hsp).trans
      (hc'.cycle_eq hrun (values_nodup_of_admissible hadm))

/-- The faults of dispatch depend on the configuration, SP and the ALU's values alone. -/
theorem Raises.congr {s s' : State} {i : Instr} {k : FaultKind} {x : Int} (h : Raises s i k x) (hcfg : s'.cfg = s.cfg)
    (hsp : s'.sp = s.sp) (hvals : holds 2 s → underTop s' = underTop s ∧ top s' = top s) : Raises s' i k x := by
  have hvalid : ∀ addr, validDataAddr s' addr ↔ validDataAddr s addr := fun addr => by
    rw [validDataAddr, validDataAddr, hcfg]
  have hholds : ∀ n, holds n s' ↔ holds n s := fun n => by rw [holds, holds, hsp]
  have hroom : hasRoom s' ↔ hasRoom s := by rw [hasRoom, hasRoom, hsp, hcfg]
  cases h with
  | loadAddr _ h => exact .loadAddr x (by rwa [hvalid])
  | storeAddr _ h => exact .storeAddr x (by rwa [hvalid])
  | underflow i h0 h hv => exact hsp ▸ .underflow i h0 (by rwa [hholds]) fun addr hi => (hvalid addr).mpr (hv addr hi)
  | pushRoom v h => exact hsp ▸ .pushRoom v (by rwa [hroom])
  | loadRoom addr hv h => exact hsp ▸ .loadRoom addr ((hvalid addr).mpr hv) (by rwa [hroom])
  | arith i o _ ho h ha =>
    obtain ⟨hunder, htop⟩ := hvals h
    exact .arith i o x ho ((hholds 2).mpr h) (by rwa [hcfg, hunder, htop])

/-! ### The trace -/

/-- The state with another log. -/
def withLog (es : List Event) (s : State) : State := withStackAndLog s.stack es s

/-- A completion appends its output to any log alike. -/
theorem completes_withLog {s t : State} {i : Instr} (h : Completes s i t) (es : List Event) :
    Completes (withLog es s) i (withLog (es ++ output s i) t) := by
  cases h with
  | push v h => rw [output, List.append_nil]; exact .push v h
  | pop h => rw [output, List.append_nil]; exact .pop h
  | alu i o r ho h ha => rw [output_of_aluOp ho, List.append_nil]; exact .alu i o r ho h ha
  | print h => exact .print h
  | jmp addr => rw [output, List.append_nil]; exact .jmp addr
  | jmplt val addr h => rw [output, List.append_nil]; exact .jmplt val addr h
  | jmpgt val addr h => rw [output, List.append_nil]; exact .jmpgt val addr h
  | jmpeq val addr h => rw [output, List.append_nil]; exact .jmpeq val addr h
  | load addr hv h => rw [output, List.append_nil]; exact .load addr hv h
  | store addr hv h => rw [output, List.append_nil]; exact .store addr hv h
  | halt => exact .halt

/-- The log without its Traces. -/
def untraced (es : List Event) : List Event := es.filter (fun e => !e.isTrace)

/-- What is appended to the log with and without its Traces differs in its Traces alone. -/
theorem untraced_untraced_append (es new : List Event) : untraced (untraced es ++ new) = untraced (es ++ new) := by
  simp [untraced]

theorem eraseTraces_withLog (es : List Event) (s : State) :
    (withLog es s).eraseTraces = withLog (untraced es) s := rfl

/-- States that differ in their Traces alone. -/
def SameButTraces (s s' : State) : Prop := s'.eraseTraces = s.eraseTraces

/-- Appending to the log without its Traces what a state appended to the log. -/
theorem sameButTraces_append {es new : List Event} {t : State} (h : t.events = es ++ new) :
    SameButTraces t (withLog (untraced es ++ new) t) := by
  rw [SameButTraces, eraseTraces_withLog, untraced_untraced_append, ← h]
  rfl

theorem eraseTraces_dispatchSimulates (s : State) :
    DispatchSimulates SameButTraces s (withLog (untraced s.events) s) := by
  have hkeep : SameButTraces s (withLog (untraced s.events ++ []) s) := sameButTraces_append (List.append_nil _).symm
  rw [List.append_nil] at hkeep
  refine ⟨congrArg sampleHost hkeep, fun k op x => congrArg (fun u => raise k op x (sampleHost u)) hkeep,
    fun i k x hr => ?_, fun _ i t hc => ?_⟩
  · exact ⟨hr.congr rfl rfl fun _ => ⟨rfl, rfl⟩, sameButTraces_append (new := [traceOf i s]) rfl⟩
  · refine ⟨_, completes_withLog hc (untraced s.events ++ [traceOf i s]), ?_⟩
    rw [List.append_assoc]
    exact sameButTraces_append (t := countStep t) (by rw [← List.append_assoc]; exact hc.events_eq)

/-- Settles O29: the log without its Traces is another log, to which the step appends what it appended. -/
theorem traceIsAPureObserver : Obligations.TraceIsAPureObserver := fun s _ hstep =>
  (eraseTraces_dispatchSimulates s).step (fun _ => rfl) hstep

/-! ### Dead stack cells -/

/-- The state with another stack. -/
def withStack (st : CellMap) (s : State) : State := withStackAndLog st s.events s

section
variable {s s' : State} (hlive : liveStack s' = liveStack s)
include hlive

/-- With a value live, one live stack has one top and one rest. -/
theorem top_and_rest_congr (hone : holds 1 s) : top s' = top s ∧ liveStack (drop s') = liveStack (drop s) := by
  obtain ⟨-, htop, hrest⟩ := liveStack_snoc s' _ _ (hlive.trans (liveStack_eq_drop_top s (by omega)))
  exact ⟨htop, hrest⟩

/-- With two values live, one live stack has one of each, and one live stack after they are replaced. -/
theorem topTwo_congr (htwo : holds 2 s) : underTop s' = underTop s ∧ top s' = top s ∧
    ∀ r, liveStack (replaceTwo r s') = liveStack (replaceTwo r s) := by
  have hsp : 1 ≤ s.sp := by omega
  obtain ⟨hsp', hunder, htop, hrest⟩ := liveStack_snoc_two s' _ _ _ (hlive.trans (liveStack_eq_two s hsp))
  exact ⟨hunder, htop, fun r => by rw [liveStack_replaceTwo r s' hsp', liveStack_replaceTwo r s hsp, hrest]⟩

theorem liveStack_push_congr (hsp' : -1 ≤ s'.sp) (hsp : -1 ≤ s.sp) (v : Cell) :
    liveStack (push v s') = liveStack (push v s) := by
  rw [liveStack_push v s' hsp', liveStack_push v s hsp, hlive]

end

/-- A completion reads and leaves live cells alone. -/
theorem exists_completes_withStack {s t : State} {i : Instr} (h : Completes s i t) (hsp : -1 ≤ s.sp) {st : CellMap}
    (hlive : liveStack (withStack st s) = liveStack s) :
    ∃ t', Completes (withStack st s) i t' ∧ t.SameButDead t' := by
  cases h with
  | push v h => exact ⟨_, .push v h, rfl, (liveStack_push_congr hlive hsp hsp v).symm⟩
  | load addr hv h => exact ⟨_, .load addr hv h, rfl, (liveStack_push_congr hlive hsp hsp _).symm⟩
  | pop h =>
    obtain ⟨-, hrest⟩ := top_and_rest_congr hlive h
    exact ⟨_, .pop h, rfl, hrest.symm⟩
  | print h =>
    obtain ⟨htop, hrest⟩ := top_and_rest_congr hlive h
    exact ⟨_, .print h, by rw [htop]; rfl, hrest.symm⟩
  | store addr hv h =>
    obtain ⟨htop, hrest⟩ := top_and_rest_congr hlive h
    exact ⟨_, .store addr hv h, by rw [htop]; rfl, hrest.symm⟩
  | alu i o r ho h ha =>
    obtain ⟨hunder, htop, hreplaced⟩ := topTwo_congr hlive h
    exact ⟨_, .alu i o r ho h (by rw [hunder, htop]; exact ha), rfl, (hreplaced r).symm⟩
  | jmp addr => exact ⟨_, .jmp addr, rfl, hlive.symm⟩
  | jmplt val addr h =>
    obtain ⟨htop, -⟩ := top_and_rest_congr hlive h
    exact ⟨_, .jmplt val addr h, by rw [htop]; rfl, hlive.symm⟩
  | jmpgt val addr h =>
    obtain ⟨htop, -⟩ := top_and_rest_congr hlive h
    exact ⟨_, .jmpgt val addr h, by rw [htop]; rfl, hlive.symm⟩
  | jmpeq val addr h =>
    obtain ⟨htop, -⟩ := top_and_rest_congr hlive h
    exact ⟨_, .jmpeq val addr h, by rw [htop]; rfl, hlive.symm⟩
  | halt => exact ⟨_, .halt, rfl, hlive.symm⟩

theorem dispatchState_withStack {s : State} {st : CellMap} (hlive : liveStack (withStack st s) = liveStack s)
    (i : Instr) : dispatchState i (withStack st s) = withStack st (dispatchState i s) := by
  have htrace : traceOf i (sampleHost (withStack st s)) = traceOf i (sampleHost s) := by
    rw [traceOf, liveStack_sampleHost, hlive]
    rfl
  exact congrArg (fun e => emit e (sampleHost (withStack st s))) htrace

theorem sameButDead_dispatchSimulates {s : State} {st : CellMap} (hlive : liveStack (withStack st s) = liveStack s) :
    DispatchSimulates State.SameButDead s (withStack st s) where
  idle := ⟨rfl, hlive.symm⟩
  stops _ _ _ := ⟨rfl, hlive.symm⟩
  raises i k x hr := by
    rw [dispatchState_withStack hlive]
    refine ⟨hr.congr rfl rfl fun htwo => ?_, rfl, hlive.symm⟩
    obtain ⟨hunder, htop, -⟩ := topTwo_congr hlive htwo
    exact ⟨hunder, htop⟩
  completes hsp i t hc := by
    obtain ⟨hlo, -⟩ := hsp
    obtain ⟨t', hc', ht', hlive'⟩ := exists_completes_withStack hc hlo hlive
    rw [dispatchState_withStack hlive]
    exact ⟨t', hc', congrArg countStep ht', hlive'⟩

/-- Settles O30: the second core is the first with another stack of the same live cells. -/
theorem deadStackCellsAreUnobservable : Obligations.DeadStackCellsAreUnobservable := by
  rintro s s' t ⟨hs', hlive⟩ hstep
  have heq : s' = withStack s'.stack s := hs'
  rw [heq] at hlive ⊢
  exact (sameButDead_dispatchSimulates hlive.symm).step (fun _ => ⟨rfl, rfl⟩) hstep

end Sys2Proof.Machine
end

section
/-! The obligations on the host's side (10_state.md R33; 20_memory.md R53; 60_exceptions.md R160, R181). -/

namespace Sys2Proof.Machine

/-! ### The status view -/

theorem viewCell_of_fits {W : Nat} (draw field : Nat) {x : Int} (h : fitsW W x) : viewCell W draw field x = x :=
  if_pos h

theorem readStatus_of_stopped (draw : Nat) {s : State} (h : s.run ≠ .running) : readStatus draw s = statusView draw s :=
  if_neg h

theorem stepsFit_of_lt {s : State} (h : s.steps < 2 ^ 32) : stepsFit s = true := by
  rw [stepsFit, decide_eq_true h, Bool.true_or]

theorem code_of_stopped {r : RunState} (h : r ≠ .running) : r.code = if r = .halted then 1 else 2 := by
  cases r with
  | running => exact absurd rfl h
  | halted | faulted => rfl

theorem code_eq_zero_iff (k : FaultKind) : k.code = 0 ↔ k = .none := by cases k <;> decide

/-- R160: each kind's code. -/
theorem code_row (k : FaultKind) : (k, k.code) ∈
    [(FaultKind.none, 0), (.unknownOpcode, 1), (.unexpectedEndOfProgram, 2), (.stackUnderflow, 3), (.stackOverflow, 4),
     (.invalidMemoryAddress, 5), (.arithmeticOverflow, 6), (.budgetExhausted, 7), (.cancelled, 8)] := by
  cases k <;> decide

/-- Settles O51: each field that fits is the register's own value, and the record is empty exactly when not Faulted. -/
theorem statusViewShowsTheRegisters : Obligations.StatusViewShowsTheRegisters := by
  intro s draw h hrun hsteps hinfo hop hpc hsp
  have hzero : fitsW s.cfg.W 0 := fitsW_of_le_length h.admissible le_rfl (Int.natCast_nonneg _)
  have hop' : fitsW s.cfg.W (s.faultOpcode.getD 0) := by
    cases heq : s.faultOpcode with
    | none => exact hzero
    | some op => exact hop op heq
  rw [readStatus_of_stopped draw hrun]
  refine ⟨code_of_stopped hrun, viewCell_of_fits draw 2 hpc, rfl, viewCell_of_fits draw 4 hop',
    viewCell_of_fits draw 5 hinfo, viewCell_of_fits draw 6 h.pcFits, viewCell_of_fits draw 7 hsp,
    if_pos (stepsFit_of_lt hsteps), ?_, code_row s.faultKind⟩
  exact (code_eq_zero_iff s.faultKind).trans (not_iff_not.mp (h.recordKind.symm.trans not_not.symm))

/-! ### Reads and loads -/

/-- Settles O52: each move tests the run state first, and then its own condition. -/
theorem hostMovesOnlyWhenStopped : Obligations.HostMovesOnlyWhenStopped := by
  intro s prog cfg a
  refine ⟨fun hrun => ⟨⟨_, if_pos hrun⟩, ⟨_, if_pos hrun⟩, ⟨_, if_pos hrun⟩⟩, fun hrun => ⟨fun ha => ?_, ?_, ?_⟩⟩
  · rw [hostReadMemory, if_neg hrun, if_neg (by omega)]
  · exact fun hadm hfits => (if_neg hrun).trans (if_neg (not_not_intro ⟨hadm, hfits⟩))
  · exact fun hadm hfits => (if_neg hrun).trans (if_neg (not_not_intro ⟨hadm, hfits⟩))

end Sys2Proof.Machine
end
